-- ==== Sys2Proof/Word.lean ====
section
/-! DEFINITION. The word types of the block: every register is 32 bits wide (10_state.md R23), a header word and a
sub-header are 16 bits (30_encoding.md R91, R94), a buffer holds bytes (00_scope.md R8). -/

namespace Sys2Proof

/-- A register (10_state.md R23). -/
abbrev Word := BitVec 32

/-- A header word or a sub-header (30_encoding.md R91, R94). -/
abbrev Half := BitVec 16

/-- A byte of a buffer (00_scope.md R8). -/
abbrev Byte := BitVec 8

/-- A host byte address (20_memory.md R60). -/
abbrev Address := BitVec 18

/-- The three-bit message type (30_encoding.md R93). -/
abbrev FrameType := BitVec 3

/-- The 13-bit length field of a header word (30_encoding.md R91). -/
abbrev LengthField := BitVec 13

end Sys2Proof
end

