-- ==== Sys2Proof/Syntax.lean ====
section
/-! DEFINITION. The encoded things of the block: the commands a CMD write runs, the frame types of a header word, and
the closed set of item codes (30_encoding.md R93, R95, R111). One constructor for each mnemonic of
spec/opcode_table.json. -/

namespace Sys2Proof

/-- What an encoding of spec/opcode_table.json stands for. A command word has no operand fields (30_encoding.md
R110); a header word carries its length field; an item code carries nothing. -/
inductive Instr where
  /-- NOP, opcode 0x00 (44_command_control.md R221). -/
  | nop
  /-- HDR.PACK, opcode 0x01 (40_header.md R133). -/
  | hdrPack
  /-- HDR.UNPACK, opcode 0x02 (40_header.md R134). -/
  | hdrUnpack
  /-- ENC.CTRL, opcode 0x03 (41_encode.md R152). -/
  | encCtrl
  /-- ENC.DATA, opcode 0x04 (41_encode.md R154). -/
  | encData
  /-- DECODE, opcode 0x05 (42_decode.md R172). -/
  | decode
  /-- SMP.START, opcode 0x06 (43_samples.md R198). -/
  | smpStart
  /-- SMP.NEXT, opcode 0x07 (43_samples.md R199). -/
  | smpNext
  /-- ILLEGAL: every other CMD value, carried whole (44_command_control.md R222). DESIGN CHOICE, log 10; safe: one
  constructor for the 29 overlapping rows of the table. -/
  | illegal (v : Word)
  /-- Header word of type 0 (30_encoding.md R93). -/
  | setControlItem (len : LengthField)
  /-- Header word of type 1. -/
  | currentControlItem (len : LengthField)
  /-- Header word of type 2. -/
  | controlItemRange (len : LengthField)
  /-- Header word of type 3. -/
  | ack (len : LengthField)
  /-- Header word of type 4. -/
  | dataItem0 (len : LengthField)
  /-- Header word of type 5. -/
  | dataItem1 (len : LengthField)
  /-- Header word of type 6. -/
  | dataItem2 (len : LengthField)
  /-- Header word of type 7. -/
  | dataItem3 (len : LengthField)
  /-- Item code None, 0x0000 (30_encoding.md R95). -/
  | itemNone
  /-- Item code ReceiverState, 0x0018. -/
  | receiverState
  /-- Item code ReceiverFrequency, 0x0020. -/
  | receiverFrequency
  /-- Item code RFFilter, 0x0044. -/
  | rfFilter
  /-- Item code ADModes, 0x008A. -/
  | adModes
  /-- Item code IQOutputDataSampleRate, 0x00B8. -/
  | iqOutputDataSampleRate
deriving DecidableEq, Repr

/-- Where an encoding is read: a value written to CMD, the header word of a frame, or the item-code sub-header of a
frame (30_encoding.md, opening paragraph, R91, R94, R110). -/
inductive Domain where
  | command
  | header
  | item
deriving DecidableEq, Repr

/-- The domain an instruction's encoding is read in. -/
def Instr.domain : Instr → Domain
  | .nop | .hdrPack | .hdrUnpack | .encCtrl | .encData | .decode | .smpStart | .smpNext => .command
  | .illegal _ => .command
  | .setControlItem _ | .currentControlItem _ | .controlItemRange _ | .ack _ => .header
  | .dataItem0 _ | .dataItem1 _ | .dataItem2 _ | .dataItem3 _ => .header
  | .itemNone | .receiverState | .receiverFrequency | .rfFilter | .adModes | .iqOutputDataSampleRate => .item

/-- How many bytes an encoding of the domain has: a command is one 32-bit write (30_encoding.md R114), a header word
and a sub-header are two bytes each (00_scope.md R7). -/
def Domain.bytes : Domain → Nat
  | .command => 4
  | .header => 2
  | .item => 2

end Sys2Proof
end

