-- ==== Sys2Proof/WellFormed.lean ====
section
/-! DEFINITION. Which instruction terms the encodings admit. -/

namespace Sys2Proof

/-- A CMD value that selects no legal command (30_encoding.md R113, 44_command_control.md R222): the legal ones are
the eight opcodes 0x00..0x07 of R111 with zeros above, so every value from 8 up is illegal. -/
def illegalCommand (v : Word) : Bool := decide (8 ≤ v.toNat)

/-- The one check a term can fail: ILLEGAL carries a value that is illegal. Every length field is encodable
(30_encoding.md R91; 93_implementation_defined.md I14), and the item codes carry nothing. -/
def Instr.wellFormed : Instr → Bool
  | .illegal v => illegalCommand v
  | .nop | .hdrPack | .hdrUnpack | .encCtrl | .encData | .decode | .smpStart | .smpNext => true
  | .setControlItem _ | .currentControlItem _ | .controlItemRange _ | .ack _ => true
  | .dataItem0 _ | .dataItem1 _ | .dataItem2 _ | .dataItem3 _ => true
  | .itemNone | .receiverState | .receiverFrequency | .rfFilter | .adModes | .iqOutputDataSampleRate => true

end Sys2Proof
end

