-- ==== Sys2Proof/Decode.lean ====
section
/-! DEFINITION. The decoder of the three encoding domains, total and rejecting by name, and after it the encoder, both
written from the tables of 30_encoding.md. -/

namespace Sys2Proof

/-! ## Fields and byte order -/

/-- `le16(b0, b1) = b0 | (b1 << 8)` (00_scope.md R10, 20_memory.md R66). -/
def le16 (b0 b1 : Byte) : Half := b0.setWidth 16 ||| (b1.setWidth 16 <<< 8)

/-- `bytes_le16(v)`: the two bytes of a 16-bit value, least significant first (00_scope.md R10). -/
def bytesLe16 (v : Half) : List Byte := [v.extractLsb' 0 8, v.extractLsb' 8 8]

/-- The four bytes of a command word, least significant first. DESIGN CHOICE, log 15; safe: the order is not
observable to the block (20_memory.md R68). -/
def bytesLe32 (v : Word) : List Byte :=
  [v.extractLsb' 0 8, v.extractLsb' 8 8, v.extractLsb' 16 8, v.extractLsb' 24 8]

/-- The command word whose bytes, least significant first, are given. -/
def le32 (b0 b1 b2 b3 : Byte) : Word :=
  b0.setWidth 32 ||| (b1.setWidth 32 <<< 8) ||| (b2.setWidth 32 <<< 16) ||| (b3.setWidth 32 <<< 24)

/-- `LEN | (TYPE << 13)` (30_encoding.md R91). -/
def headerWord (t : FrameType) (len : LengthField) : Half := len.setWidth 16 ||| (t.setWidth 16 <<< 13)

/-- `TYPE = w >> 13` (30_encoding.md R91). -/
def headerType (w : Half) : FrameType := (w >>> 13).setWidth 3

/-- `LEN = w & 0x1FFF` (30_encoding.md R91). -/
def headerLen (w : Half) : LengthField := (w &&& 0x1FFF#16).setWidth 13

/-- The opcode field of a command word, `v[7:0]` (30_encoding.md R110). -/
def commandOpcode (v : Word) : Byte := v.extractLsb' 0 8

/-- The field of a command word that must be 0, `v[31:8]` (30_encoding.md R110). -/
def commandZeroField (v : Word) : BitVec 24 := v.extractLsb' 8 24

/-! ## Decoding -/

/-- The command a 32-bit value written to CMD selects (30_encoding.md R110, R111). Every value selects one. -/
def decodeCommand (v : Word) : Instr :=
  if commandZeroField v ≠ 0 then .illegal v
  else
    match (commandOpcode v).toNat with
    | 0x00 => .nop
    | 0x01 => .hdrPack
    | 0x02 => .hdrUnpack
    | 0x03 => .encCtrl
    | 0x04 => .encData
    | 0x05 => .decode
    | 0x06 => .smpStart
    | 0x07 => .smpNext
    | _ => .illegal v

/-- The frame type and length field of a header word (30_encoding.md R91, R93). Every word is one. -/
def decodeHeader (w : Half) : Instr :=
  match (headerType w).toNat with
  | 0 => .setControlItem (headerLen w)
  | 1 => .currentControlItem (headerLen w)
  | 2 => .controlItemRange (headerLen w)
  | 3 => .ack (headerLen w)
  | 4 => .dataItem0 (headerLen w)
  | 5 => .dataItem1 (headerLen w)
  | 6 => .dataItem2 (headerLen w)
  | _ => .dataItem3 (headerLen w)

/-- The item code a sub-header holds, if it is one of the closed set (30_encoding.md R95). -/
def decodeItem (c : Half) : Option Instr :=
  match c.toNat with
  | 0x0000 => some .itemNone
  | 0x0018 => some .receiverState
  | 0x0020 => some .receiverFrequency
  | 0x0044 => some .rfFilter
  | 0x008A => some .adModes
  | 0x00B8 => some .iqOutputDataSampleRate
  | _ => none

/-- Why bytes are no encoding of a domain. -/
inductive Undecodable where
  /-- Fewer bytes than the domain's encodings have. -/
  | tooShort (d : Domain)
  /-- A sub-header outside the closed set of item codes (30_encoding.md R95, R104). -/
  | unknownItemCode (code : Half)
deriving DecidableEq, Repr

/-- The instruction at the front of a byte sequence read in a domain, with the bytes after it. -/
def decodeBytes : Domain → List Byte → Except Undecodable (Instr × List Byte)
  | .command, b0 :: b1 :: b2 :: b3 :: rest => .ok (decodeCommand (le32 b0 b1 b2 b3), rest)
  | .header, b0 :: b1 :: rest => .ok (decodeHeader (le16 b0 b1), rest)
  | .item, b0 :: b1 :: rest =>
    match decodeItem (le16 b0 b1) with
    | some i => .ok (i, rest)
    | none => .error (.unknownItemCode (le16 b0 b1))
  | d, _ => .error (.tooShort d)

/-- The instruction read from a word of spec/opcode_table.json. Rows of 16 bits are header words and item codes;
the two sets of words overlap and the frame position that tells them apart (30_encoding.md R90, R94) is not given
here, so a word of the closed set reads as its item code and any other as a header word. Every other length is a
command word. DESIGN CHOICE, log 8; safe. -/
def decodeTableWord (nbits w : Nat) : Option Instr :=
  let header := decodeBytes .header (bytesLe16 (BitVec.ofNat 16 w))
  let item := decodeBytes .item (bytesLe16 (BitVec.ofNat 16 w))
  let command := decodeBytes .command (bytesLe32 (BitVec.ofNat 32 w))
  if nbits = 16 then
    match item, header with
    | .ok (i, _), _ => some i
    | .error _, .ok (i, _) => some i
    | .error _, .error _ => none
  else
    match command with
    | .ok (i, _) => some i
    | .error _ => none

/-! ## Encoding -/

/-- The value written to CMD that runs a command (30_encoding.md R111); 0 for what is no command. -/
def commandWord : Instr → Word
  | .nop => 0x00000000#32
  | .hdrPack => 0x00000001#32
  | .hdrUnpack => 0x00000002#32
  | .encCtrl => 0x00000003#32
  | .encData => 0x00000004#32
  | .decode => 0x00000005#32
  | .smpStart => 0x00000006#32
  | .smpNext => 0x00000007#32
  | .illegal v => v
  | .setControlItem _ | .currentControlItem _ | .controlItemRange _ | .ack _ => 0
  | .dataItem0 _ | .dataItem1 _ | .dataItem2 _ | .dataItem3 _ => 0
  | .itemNone | .receiverState | .receiverFrequency | .rfFilter | .adModes | .iqOutputDataSampleRate => 0

/-- An instruction's bytes, in the byte order of its domain (30_encoding.md R91, R95, R111; 20_memory.md R66). -/
def encode : Instr → List Byte
  | .nop => bytesLe32 (commandWord .nop)
  | .hdrPack => bytesLe32 (commandWord .hdrPack)
  | .hdrUnpack => bytesLe32 (commandWord .hdrUnpack)
  | .encCtrl => bytesLe32 (commandWord .encCtrl)
  | .encData => bytesLe32 (commandWord .encData)
  | .decode => bytesLe32 (commandWord .decode)
  | .smpStart => bytesLe32 (commandWord .smpStart)
  | .smpNext => bytesLe32 (commandWord .smpNext)
  | .illegal v => bytesLe32 v
  | .setControlItem len => bytesLe16 (headerWord 0 len)
  | .currentControlItem len => bytesLe16 (headerWord 1 len)
  | .controlItemRange len => bytesLe16 (headerWord 2 len)
  | .ack len => bytesLe16 (headerWord 3 len)
  | .dataItem0 len => bytesLe16 (headerWord 4 len)
  | .dataItem1 len => bytesLe16 (headerWord 5 len)
  | .dataItem2 len => bytesLe16 (headerWord 6 len)
  | .dataItem3 len => bytesLe16 (headerWord 7 len)
  | .itemNone => bytesLe16 0x0000#16
  | .receiverState => bytesLe16 0x0018#16
  | .receiverFrequency => bytesLe16 0x0020#16
  | .rfFilter => bytesLe16 0x0044#16
  | .adModes => bytesLe16 0x008A#16
  | .iqOutputDataSampleRate => bytesLe16 0x00B8#16

end Sys2Proof
end

