-- ==== Sys2Proof/Config.lean ====
section
/-! DEFINITION. What an implementation fixes (00_scope.md R7) and the free values, which the spec leaves open
(93_implementation_defined.md I2, I3, I4). A constant without a body is one that no proof can evaluate. -/

namespace Sys2Proof.Config

/-- How far IN_CAP lies above its least value; open (92_eei_decisions.md D10). DESIGN CHOICE of form, log 5; safe. -/
opaque inCapExtra : Fin 57341

/-- `IN_CAP`: any natural number in 8195..65535 (00_scope.md R7). -/
@[irreducible] def inCap : Nat := inCapExtra.val + 8195

/-- `OUT_CAP` (00_scope.md R7). -/
abbrev outCap : Nat := 8194

/-- `MAX_NONDATA_LEN` (00_scope.md R7). -/
abbrev maxNonDataLen : Nat := 8191

/-- `MAX_DATA_LEN` (00_scope.md R7). -/
abbrev maxDataLen : Nat := 8194

/-- The byte a buffer cell holds after the `epoch`-th reset until it is written, by its host address: unspecified
(70_reset_and_hazards.md R261, 93_implementation_defined.md I4). Free value, log 4; safe. -/
opaque bufferAtReset : (epoch address : Nat) → Byte

/-- The byte the `draw`-th host read past the valid length returns: unspecified, drawn anew at each read
(20_memory.md R76, 93_implementation_defined.md I3). Free value, log 3; safe. -/
opaque unspecifiedByte : (draw : Nat) → Byte

end Sys2Proof.Config
end

