-- ==== Sys2Proof/Machine/State.lean ====
section
/-! DEFINITION. Everything the block holds (10_state.md R22), as plain data, and the state after reset
(10_state.md R52, 70_reset_and_hazards.md R260, R261). -/

namespace Sys2Proof.Machine

/-- Both buffers, by host address: IN[i] at 0x10000 + i and OUT[i] at 0x20000 + i (20_memory.md R61). The one
canonical form is addresses strictly rising; an unlisted address has no value (log 13). -/
abbrev Memory := List Host.Cell

/-- One access at the host port (20_memory.md R61 to R65), or an assertion of the reset input
(70_reset_and_hazards.md R260). The width is in bytes; a one-byte write carries its byte in bits 7:0. -/
inductive HostAccess where
  | read (width : Nat) (address : Address)
  | write (width : Nat) (address : Address) (data : Word)
  | reset
deriving DecidableEq, Repr

/-- The result group RES (10_state.md R36 to R39, R46, R47). -/
structure ResultGroup where
  /-- R_KIND (10_state.md R36). -/
  kind : Word
  /-- R_TYPE (10_state.md R37). -/
  frameType : Word
  /-- R_ITEM (10_state.md R38). -/
  item : Word
  /-- R_SEQ (10_state.md R39). -/
  seq : Word
  /-- R_BODY_OFF (10_state.md R46). -/
  bodyOff : Word
  /-- R_BODY_LEN (10_state.md R46). -/
  bodyLen : Word
  /-- R_HDR (10_state.md R47). -/
  hdr : Word
  /-- R_DECLEN (10_state.md R47). -/
  decLen : Word
  /-- R_ESC (10_state.md R47). -/
  esc : Word
deriving DecidableEq, Repr

/-- Every member of RES at 0 (10_state.md R48). -/
def ResultGroup.zero : ResultGroup :=
  { kind := 0, frameType := 0, item := 0, seq := 0, bodyOff := 0, bodyLen := 0, hdr := 0, decLen := 0, esc := 0 }

/-- The sample cursor (10_state.md R40, R41, R42, R49). -/
structure Cursor where
  /-- SU_STATE: ARMED [0], BPS [10:8], WIDTH [21:16] (10_state.md R40). -/
  state : Word
  /-- SU_OFF (10_state.md R41). -/
  off : Word
  /-- SU_COUNT (10_state.md R41). -/
  count : Word
  /-- SU_POS (10_state.md R42). -/
  pos : Word
  /-- SU_SAMPLE (10_state.md R49). -/
  sample : Word
deriving DecidableEq, Repr

/-- Every cursor register at 0 (43_samples.md R198, a raising SMP.START; 10_state.md R52). -/
def Cursor.zero : Cursor := { state := 0, off := 0, count := 0, pos := 0, sample := 0 }

/-- The block's state (10_state.md R22), and after it the model's own four fields. CMD holds nothing and the constants
ID and INCAP are not stored (10_state.md R25, R23; log 18). -/
structure State where
  /-- STATUS (10_state.md R26). -/
  status : Word
  /-- TYPE (10_state.md R27). -/
  frameType : Word
  /-- ITEM (10_state.md R28). -/
  item : Word
  /-- TLEN (10_state.md R29). -/
  tlen : Word
  /-- HDR (10_state.md R30). -/
  hdr : Word
  /-- WIDTH (10_state.md R31). -/
  width : Word
  /-- SOFF (10_state.md R32). -/
  soff : Word
  /-- SLEN (10_state.md R33). -/
  slen : Word
  /-- IN_LEN (10_state.md R34). -/
  inLen : Word
  /-- OUT_LEN (10_state.md R35). -/
  outLen : Word
  /-- RES (10_state.md R48). -/
  res : ResultGroup
  /-- The sample cursor (10_state.md R40). -/
  su : Cursor
  /-- The bytes of IN and OUT written since reset (10_state.md R43, R44). -/
  mem : Memory
  /-- The accesses the host asks for next, oldest first (20_memory.md R73). The model's own; log 1. -/
  host : List HostAccess
  /-- The data of the host's latest read, zero-extended. The model's own; log 2. -/
  readData : Word
  /-- How many unspecified bytes host reads have drawn (20_memory.md R76). The model's own; log 3. -/
  draws : Nat
  /-- How often the reset input has been asserted (70_reset_and_hazards.md R261). The model's own; log 4. -/
  resets : Nat
deriving DecidableEq, Repr

/-- Why the machine stops with a fault. There is no such reason: every command ends with a status code
(60_exceptions.md R231), and an unmapped address is defined (20_memory.md R65). Log 17; safe. -/
inductive Fault where
deriving DecidableEq, Repr

/-- Why a step is refused. -/
inductive Refusal where
  /-- Raised by an arm of `exec` that has no meaning yet; no arm of this model is one. Safe: nothing is claimed. -/
  | notModelled (mnemonic : String)
  /-- Raised by the host port for an access of a shape outside the interface (20_memory.md R64,
  93_implementation_defined.md I6): another width than the window's, or a misaligned register access. Safe: the spec
  gives the host no such step. -/
  | unsupportedAccess (width : Nat) (address : Address)
deriving DecidableEq, Repr

/-- The block right after reset (10_state.md R52): every register 0, the bytes of IN and OUT unspecified
(70_reset_and_hazards.md R261). The last four fields are the model's own, DESIGN CHOICE, logs 1 to 4; safe. -/
def State.reset : State :=
  { status := 0, frameType := 0, item := 0, tlen := 0, hdr := 0, width := 0, soff := 0, slen := 0,
    inLen := 0, outLen := 0, res := ResultGroup.zero, su := Cursor.zero, mem := [],
    host := [], readData := 0, draws := 0, resets := 0 }

end Sys2Proof.Machine
end

