-- ==== Sys2Proof/Machine/Flags.lean ====
section
/-! DEFINITION. The block's status indications (10_state.md R45): STATUS.CODE with its eleven values, and the fields of
SU_STATE. -/

namespace Sys2Proof.Machine

/-- The completion codes (60_exceptions.md R230). -/
inductive Status where
  | ok
  | empty
  | lengthMismatch
  | unknownItemCode
  | truncated
  | invalidSampleWidth
  | encodeTooLong
  | invalidArgument
  | sampleEnd
  | notArmed
  | illegalCommand
deriving DecidableEq, Repr

/-- STATUS as it reads with a completion code: CODE in bits 7:0, zeros above (10_state.md R26, 60_exceptions.md
R230). -/
def Status.code : Status → Word
  | .ok => 0x00
  | .empty => 0x01
  | .lengthMismatch => 0x02
  | .unknownItemCode => 0x03
  | .truncated => 0x04
  | .invalidSampleWidth => 0x05
  | .encodeTooLong => 0x06
  | .invalidArgument => 0x07
  | .sampleEnd => 0x08
  | .notArmed => 0x09
  | .illegalCommand => 0x0A

/-- SU_STATE with ARMED = 1 and the given fields: `1 | (b << 8) | (WIDTH << 16)` (43_samples.md R198). -/
def armedState (bps : Nat) (width : Word) : Word := 1 ||| (BitVec.ofNat 32 bps <<< 8) ||| (width <<< 16)

/-- SU_STATE.ARMED (10_state.md R40). -/
def Cursor.armed (c : Cursor) : Bool := c.state.getLsbD 0

/-- SU_STATE.BPS (10_state.md R40). -/
def Cursor.bps (c : Cursor) : Nat := (c.state.extractLsb' 8 3).toNat

/-- SU_STATE.WIDTH (10_state.md R40). -/
def Cursor.width (c : Cursor) : Nat := (c.state.extractLsb' 16 6).toNat

/-- Clears ARMED and leaves BPS and WIDTH (20_memory.md R75). -/
def Cursor.disarm (c : Cursor) : Cursor := { c with state := c.state &&& 0xFFFFFFFE#32 }

end Sys2Proof.Machine
end

