-- ==== Sys2Proof/Machine/Ops.lean ====
section
/-! DEFINITION. The named operations over the buffers and registers: reading and writing bytes, completing a command,
raising a status code, and the register window. -/

namespace Sys2Proof.Machine

/-! ## Memory -/

/-- The canonical form: addresses strictly rising. An unlisted address has no value, so no entry can repeat what an
unlisted address reads as (log 13). -/
abbrev Memory.wf (m : Memory) : Prop := m.Pairwise (fun c d => c.1 < d.1)

/-- The byte written last at an address since reset, if any. -/
def Memory.get (m : Memory) (a : Nat) : Option Byte :=
  match m with
  | [] => none
  | (x, b) :: rest => if x = a then some b else Memory.get rest a

/-- Writes one byte, in its place in the order. -/
def Memory.set (m : Memory) (a : Nat) (b : Byte) : Memory :=
  match m with
  | [] => [(a, b)]
  | (x, c) :: rest =>
    if a < x then (a, b) :: (x, c) :: rest
    else if a = x then (a, b) :: rest
    else (x, c) :: Memory.set rest a b

/-- Writes bytes at consecutive addresses, the first at the lowest (00_scope.md R11, `MemWrite`). -/
def Memory.setBytes (m : Memory) (a : Nat) : List Byte → Memory
  | [] => m
  | b :: bs => Memory.setBytes (m.set a b) (a + 1) bs

/-- Host address of IN[0] (20_memory.md R61). -/
abbrev inBase : Nat := 0x10000

/-- Host address of OUT[0] (20_memory.md R61). -/
abbrev outBase : Nat := 0x20000

/-- The byte at a host address of a buffer: the one written last, or the unspecified byte reset left there
(70_reset_and_hazards.md R261; free value, log 4). -/
def State.byteAt (s : State) (a : Nat) : Byte := (s.mem.get a).getD (Config.bufferAtReset s.resets a)

/-- `IN[i]` (00_scope.md R11). -/
def State.inByte (s : State) (i : Nat) : Byte := s.byteAt (inBase + i)

/-- `OUT[i]` (00_scope.md R11). -/
def State.outByte (s : State) (i : Nat) : Byte := s.byteAt (outBase + i)

/-- `IN[a..a+n]` (00_scope.md R11, `MemRead`). -/
def State.inBytes (s : State) (a n : Nat) : List Byte := (List.range n).map fun j => s.inByte (a + j)

/-- `OUT[a..a+n]`. -/
def State.outBytes (s : State) (a n : Nat) : List Byte := (List.range n).map fun j => s.outByte (a + j)

/-- Writes a frame to OUT from OUT[0] and sets OUT_LEN to its length (41_encode.md R152, R154). -/
def State.writeOut (s : State) (frame : List Byte) : State :=
  { s with mem := s.mem.setBytes outBase frame, outLen := BitVec.ofNat 32 frame.length }

/-! ## Completion -/

/-- A command's last effect: STATUS.CODE takes its completion code (10_state.md R26). -/
def State.complete (s : State) (c : Status) : State := { s with status := c.code }

/-- `raise X`: the command ends at once with STATUS.CODE = X, and keeps what it did before (60_exceptions.md R231).
This is the block's only exception; nothing is saved and nothing returns from it (60_exceptions.md R231, R237). -/
def State.raise (s : State) (c : Status) : State := s.complete c

/-- RES cleared, the first effect of every codec command (10_state.md R48). -/
def State.clearRes (s : State) : State := { s with res := ResultGroup.zero }

/-- OUT_LEN cleared, the second effect of an encoder (41_encode.md R152, R154). -/
def State.clearOut (s : State) : State := { s with outLen := 0 }

/-- The cursor cleared, the effect of a raising SMP.START (43_samples.md R198). -/
def State.clearCursor (s : State) : State := { s with su := Cursor.zero }

/-- SU_STATE.ARMED cleared, the effect of every host write to IN or IN_LEN (20_memory.md R75). -/
def State.disarm (s : State) : State := { s with su := s.su.disarm }

/-! ## The register window -/

/-- The registers of the window (10_state.md R23). -/
inductive Reg where
  | cmd | status | frameType | item | tlen | hdr | width | soff | slen | inLen | outLen
  | rKind | rType | rItem | rSeq | rBodyOff | rBodyLen | rHdr | rDecLen | rEsc
  | suState | suOff | suCount | suPos | suSample | id | inCap
deriving DecidableEq, Repr

/-- A register's byte offset in the window (10_state.md R23). -/
def Reg.offset : Reg → Nat
  | .cmd => 0x00
  | .status => 0x04
  | .frameType => 0x08
  | .item => 0x0C
  | .tlen => 0x10
  | .hdr => 0x14
  | .width => 0x18
  | .soff => 0x1C
  | .slen => 0x20
  | .inLen => 0x24
  | .outLen => 0x28
  | .rKind => 0x2C
  | .rType => 0x30
  | .rItem => 0x34
  | .rSeq => 0x38
  | .rBodyOff => 0x3C
  | .rBodyLen => 0x40
  | .rHdr => 0x44
  | .rDecLen => 0x48
  | .rEsc => 0x4C
  | .suState => 0x50
  | .suOff => 0x54
  | .suCount => 0x58
  | .suPos => 0x5C
  | .suSample => 0x60
  | .id => 0x64
  | .inCap => 0x68

/-- The registers in the order of the map. -/
def Reg.all : List Reg :=
  [.cmd, .status, .frameType, .item, .tlen, .hdr, .width, .soff, .slen, .inLen, .outLen,
    .rKind, .rType, .rItem, .rSeq, .rBodyOff, .rBodyLen, .rHdr, .rDecLen, .rEsc,
    .suState, .suOff, .suCount, .suPos, .suSample, .id, .inCap]

/-- The register at an offset; none at the reserved offsets 0x6C..0xFC (10_state.md R24). -/
def Reg.atOffset (off : Nat) : Option Reg := Reg.all.find? fun r => r.offset == off

/-- The constant ID (10_state.md R23). -/
def idValue : Word := 0x46435301#32

/-- What a host read of a register returns (10_state.md R23, R24): CMD reads 0, ID and INCAP are constants. -/
def State.readReg (s : State) : Reg → Word
  | .cmd => 0
  | .status => s.status
  | .frameType => s.frameType
  | .item => s.item
  | .tlen => s.tlen
  | .hdr => s.hdr
  | .width => s.width
  | .soff => s.soff
  | .slen => s.slen
  | .inLen => s.inLen
  | .outLen => s.outLen
  | .rKind => s.res.kind
  | .rType => s.res.frameType
  | .rItem => s.res.item
  | .rSeq => s.res.seq
  | .rBodyOff => s.res.bodyOff
  | .rBodyLen => s.res.bodyLen
  | .rHdr => s.res.hdr
  | .rDecLen => s.res.decLen
  | .rEsc => s.res.esc
  | .suState => s.su.state
  | .suOff => s.su.off
  | .suCount => s.su.count
  | .suPos => s.su.pos
  | .suSample => s.su.sample
  | .id => idValue
  | .inCap => BitVec.ofNat 32 Config.inCap

/-- A host write to IN_LEN: taken when the value fits IN, and in either case the cursor is disarmed (10_state.md
R34, 20_memory.md R75). -/
def State.writeInLen (s : State) (v : Word) : State :=
  if v.toNat ≤ Config.inCap then { s with inLen := v }.disarm else s.disarm

/-- The effect of a host write to a register (10_state.md R24): an RW register stores all 32 bits, IN_LEN as R34
says, a read-only register ignores the write. A write to CMD runs a command instead (10_state.md R25; `commandOf`). -/
def State.writeReg (s : State) (r : Reg) (v : Word) : State :=
  match r with
  | .frameType => { s with frameType := v }
  | .item => { s with item := v }
  | .tlen => { s with tlen := v }
  | .hdr => { s with hdr := v }
  | .width => { s with width := v }
  | .soff => { s with soff := v }
  | .slen => { s with slen := v }
  | .inLen => s.writeInLen v
  | .cmd | .status | .outLen => s
  | .rKind | .rType | .rItem | .rSeq | .rBodyOff | .rBodyLen | .rHdr | .rDecLen | .rEsc => s
  | .suState | .suOff | .suCount | .suPos | .suSample | .id | .inCap => s

end Sys2Proof.Machine
end

