-- ==== Sys2Proof/Machine/Operands.lean ====
section
/-! DEFINITION. The operand forms of the commands (30_encoding.md R105, R112): how each reads its registers and its
bytes of IN. -/

namespace Sys2Proof.Machine

/-- The closed set of item codes (30_encoding.md R95). -/
def itemCodes : List Word := [0x0000#32, 0x0018#32, 0x0020#32, 0x0044#32, 0x008A#32, 0x00B8#32]

/-- `known(c)`, of a whole 32-bit value: every value from 0x10000 up is unknown (30_encoding.md R95, 10_state.md
R28). -/
def knownItem (c : Word) : Bool := itemCodes.contains c

/-- The data types, `type ≥ DataItem0` (30_encoding.md R93, R99). -/
def isDataType (t : FrameType) : Bool := decide (4 ≤ t.toNat)

/-- The message type a TYPE register holds, once a command has checked that it is at most 7 (10_state.md R27). -/
def typeOperand (s : State) : FrameType := s.frameType.setWidth 3

/-- `s32(TLEN)` (10_state.md R29, 00_scope.md R9). -/
def lengthOperand (s : State) : Int := s.tlen.toInt

/-- `HDR[15:0]` (10_state.md R30). -/
def headerOperand (s : State) : Half := s.hdr.setWidth 16

/-- The buffer operand of DECODE and the params operand of the encoders, `IN[0..IN_LEN]` (30_encoding.md R112). -/
def paramsOperand (s : State) : List Byte := s.inBytes 0 s.inLen.toNat

/-- `le16(IN[a..a+2])` (20_memory.md R67). -/
def inHalf (s : State) (a : Nat) : Half := le16 (s.inByte a) (s.inByte (a + 1))

/-- The value of bytes with the lowest index least significant, `Σ b[j] << (8·j)` (20_memory.md R67). -/
def leValue : List Byte → Nat
  | [] => 0
  | b :: bs => b.toNat + 256 * leValue bs

/-- `bps(w) = (w + 7) div 8` (43_samples.md R192). -/
def bytesPerSample (w : Nat) : Nat := (w + 7) / 8

/-- `valid(w)`: `1 ≤ w ≤ 32` (43_samples.md R191). -/
def validWidth (w : Nat) : Bool := decide (1 ≤ w ∧ w ≤ 32)

end Sys2Proof.Machine
end

