-- ==== Sys2Proof/Machine/Header.lean ====
section
/-! DEFINITION. Header packing and unpacking, as functions and as the commands HDR.PACK and HDR.UNPACK
(40_header.md). -/

namespace Sys2Proof.Machine

/-- A header word with its escape bit, as `pack_header` returns them (40_header.md R130). -/
structure PackedHeader where
  word : Half
  esc : Bool
deriving DecidableEq, Repr

/-- `pack_header(t, total_len)` (40_header.md R130): a data frame of 8194 bytes takes the length-0 escape; any other
length above 8191 is too long. -/
def packHeader (t : FrameType) (total : Int) : Except Status PackedHeader :=
  if total < 0 then .error .invalidArgument
  else if isDataType t ∧ total = Config.maxDataLen then .ok ⟨headerWord t 0, true⟩
  else if (Config.maxNonDataLen : Int) < total then .error .encodeTooLong
  else .ok ⟨headerWord t (BitVec.ofInt 13 total), false⟩

/-- The four values of `unpack_header(w)`. -/
structure UnpackedHeader where
  frameType : FrameType
  raw : LengthField
  decl : Nat
  esc : Bool
deriving DecidableEq, Repr

/-- `unpack_header(w)` (40_header.md R132): a length field of 0 in a data type stands for 8194. -/
def unpackHeader (w : Half) : UnpackedHeader :=
  let t := headerType w
  let raw := headerLen w
  let esc := isDataType t && raw == 0
  { frameType := t, raw := raw, decl := if esc then Config.maxDataLen else raw.toNat, esc := esc }

/-- The four frame variants (30_encoding.md R97). -/
inductive FrameKind where
  | control
  | dataWithItem
  | dataWithSeq
  | dataBare
deriving DecidableEq, Repr

/-- The number R_KIND holds for a variant (30_encoding.md R97, 10_state.md R36). -/
def FrameKind.code : FrameKind → Word
  | .control => 0
  | .dataWithItem => 1
  | .dataWithSeq => 2
  | .dataBare => 3

/-- `kind(t)` (30_encoding.md R97). -/
def frameKind (t : FrameType) : FrameKind :=
  match t.toNat with
  | 0 | 1 | 2 | 3 => .control
  | 4 => .dataWithItem
  | 5 => .dataWithSeq
  | _ => .dataBare

/-- A one-bit flag as a register reads it (10_state.md R47). -/
def flagWord (b : Bool) : Word := (BitVec.ofBool b).setWidth 32

/-- RES after a header has been produced: R_HDR and R_ESC, the rest 0 (40_header.md R133; 41_encode.md R152, R154). -/
def packedRes (p : PackedHeader) : ResultGroup :=
  { ResultGroup.zero with hdr := p.word.setWidth 32, esc := flagWord p.esc }

/-- RES after HDR.UNPACK of a word (40_header.md R134). -/
def unpackedRes (w : Half) : ResultGroup :=
  let u := unpackHeader w
  { ResultGroup.zero with
    hdr := w.setWidth 32
    frameType := u.frameType.setWidth 32
    kind := (frameKind u.frameType).code
    decLen := BitVec.ofNat 32 u.decl
    esc := flagWord u.esc }

/-- `pack_header` of the operand registers: TYPE is checked first (40_header.md R133). -/
def packOperands (s : State) : Except Status PackedHeader :=
  if 7 < s.frameType.toNat then .error .invalidArgument else packHeader (typeOperand s) (lengthOperand s)

/-- What HDR.PACK does with its result: RES is cleared, then the header is reported or the failure raised (40_header.md
R133, 60_exceptions.md R231). -/
def finishPack (r : Except Status PackedHeader) (s : State) : State :=
  match r with
  | .error e => s.clearRes.raise e
  | .ok p => { s.clearRes with res := packedRes p }.complete .ok

/-- HDR.PACK (40_header.md R133). -/
def execHdrPack (s : State) : Host.Outcome State Fault Refusal := .next (finishPack (packOperands s) s)

/-- HDR.UNPACK (40_header.md R134). -/
def execHdrUnpack (s : State) : Host.Outcome State Fault Refusal :=
  let s0 := s.clearRes
  if 0xFFFF < s.hdr.toNat then .next (s0.raise .invalidArgument)
  else .next ({ s0 with res := unpackedRes (headerOperand s) }.complete .ok)

end Sys2Proof.Machine
end

