-- ==== Sys2Proof/Machine/Bus.lean ====
section
/-! DEFINITION. The host port: which accesses run a command, and what every other access and the reset input do
(20_memory.md R61 to R65, R75, R76; 70_reset_and_hazards.md R260). -/

namespace Sys2Proof.Machine

/-- What a host address names (20_memory.md R61). -/
inductive Target where
  | register (offset : Nat)
  | inByte (i : Nat)
  | outByte (i : Nat)
  | unmapped
deriving DecidableEq, Repr

/-- The address map (20_memory.md R61). -/
def target (a : Address) : Target :=
  let n := a.toNat
  if n < 0x100 then .register n
  else if n < inBase then .unmapped
  else if n < outBase then
    if n - inBase < Config.inCap then .inByte (n - inBase) else .unmapped
  else if n - outBase < Config.outCap then .outByte (n - outBase)
  else .unmapped

/-- An access that begins at an unmapped address and reaches into a buffer window: it is an access of another width
than the window's (20_memory.md R64). DESIGN CHOICE, log 11; safe. -/
def reachesWindow (width : Nat) (a : Address) : Bool :=
  decide (a.toNat < inBase ∧ inBase < a.toNat + width) || decide (a.toNat < outBase ∧ outBase < a.toNat + width)

/-- The shapes inside the interface (20_memory.md R62 to R65): aligned 32-bit accesses to the register window, bytes to
the buffer windows, any width at an unmapped address. That a misaligned 32-bit access is one of these at an unmapped
address, against R64's letter: DEDUCED, log 11; unsafe. -/
def supportedAccess (width : Nat) (a : Address) : Bool :=
  match target a with
  | .register off => decide (width = 4 ∧ off % 4 = 0)
  | .inByte _ => decide (width = 1)
  | .outByte _ => decide (width = 1)
  | .unmapped => !reachesWindow width a

/-- The host has read a value. -/
def State.returnData (s : State) (v : Word) : State := { s with readData := v }

/-- The host has read a byte past the valid length: an unspecified byte, drawn at this read (20_memory.md R76; free
value, log 3). -/
def State.returnUnspecified (s : State) : State :=
  { s.returnData ((Config.unspecifiedByte s.draws).setWidth 32) with draws := s.draws + 1 }

/-- A host read of a byte of IN (20_memory.md R63, R76). -/
def readIn (i : Nat) (s : State) : State :=
  if i < s.inLen.toNat then s.returnData ((s.inByte i).setWidth 32) else s.returnUnspecified

/-- A host read of a byte of OUT (20_memory.md R63, R76). -/
def readOut (i : Nat) (s : State) : State :=
  if i < s.outLen.toNat then s.returnData ((s.outByte i).setWidth 32) else s.returnUnspecified

/-- A host read of a register; a reserved offset reads 0 (10_state.md R24). -/
def readRegister (off : Nat) (s : State) : State :=
  match Reg.atOffset off with
  | some r => s.returnData (s.readReg r)
  | none => s.returnData 0

/-- A host write to a register; a reserved offset ignores it (10_state.md R24). -/
def writeRegister (off : Nat) (v : Word) (s : State) : State :=
  match Reg.atOffset off with
  | some r => s.writeReg r v
  | none => s

/-- A host write of a byte of IN: it is stored and the cursor disarmed (20_memory.md R63, R75). -/
def writeIn (i : Nat) (b : Byte) (s : State) : State := { s with mem := s.mem.set (inBase + i) b }.disarm

/-- The effect of a read of a supported shape (20_memory.md R62, R63, R65). -/
def busRead (a : Address) (s : State) : State :=
  match target a with
  | .register off => readRegister off s
  | .inByte i => readIn i s
  | .outByte i => readOut i s
  | .unmapped => s.returnData 0

/-- The effect of a write of a supported shape that runs no command (20_memory.md R62, R63, R65). -/
def busWrite (a : Address) (v : Word) (s : State) : State :=
  match target a with
  | .register off => writeRegister off v s
  | .inByte i => writeIn i (v.setWidth 8) s
  | .outByte _ => s
  | .unmapped => s

/-- The reset input (70_reset_and_hazards.md R260, R261, R262): every register takes its reset value and the buffers
are unspecified anew. What the host has read and asks for next is not the block's. DESIGN CHOICE, log 23; safe. -/
def resetBlock (s : State) : State :=
  { State.reset with host := s.host, readData := s.readData, draws := s.draws, resets := s.resets + 1 }

/-- The command an access runs: a 32-bit write to CMD (10_state.md R25, 30_encoding.md R110). -/
def commandOf : HostAccess → Option Instr
  | .write width a v => if width = 4 ∧ a.toNat = Reg.cmd.offset then some (decodeCommand v) else none
  | .read _ _ => none
  | .reset => none

/-- What an access that runs no command does (20_memory.md R61 to R65). -/
def busAccess (x : HostAccess) (s : State) : Host.Outcome State Fault Refusal :=
  match x with
  | .read width a =>
    if supportedAccess width a then .next (busRead a s) else .refused (.unsupportedAccess width a)
  | .write width a v =>
    if supportedAccess width a then .next (busWrite a v s) else .refused (.unsupportedAccess width a)
  | .reset => .next (resetBlock s)

/-- A frame that holds a 16-bit word of spec/opcode_table.json where DECODE reads it, with its length: an item code as
the sub-header of a four-byte SetControlItem frame, any other word as the header of a frame of its declared length
with a sub-header of zeros (log 9). -/
def tableFrame (w : Half) : List Byte × Nat :=
  match decodeItem w with
  | some _ => (bytesLe16 (headerWord 0 4) ++ bytesLe16 w, 4)
  | none => (bytesLe16 w ++ [0, 0], max (unpackHeader w).decl 2)

/-- Places a word of spec/opcode_table.json where the next step runs it (log 9): a command word as the host's next
write to CMD; a 16-bit word inside a frame in IN, with a write of DECODE to CMD next. -/
def placeTableWord (nbits w : Nat) (s : State) : State :=
  if nbits = 16 then
    let f := tableFrame (BitVec.ofNat 16 w)
    { s with
      mem := s.mem.setBytes inBase f.1
      inLen := BitVec.ofNat 32 f.2
      host := .write 4 0 (commandWord .decode) :: s.host }
  else { s with host := .write 4 0 (BitVec.ofNat 32 w) :: s.host }

end Sys2Proof.Machine
end

