-- ==== Sys2Proof/Machine/Control.lean ====
section
/-! DEFINITION. The no-op and the illegal command (44_command_control.md). -/

namespace Sys2Proof.Machine

/-- NOP: STATUS.CODE <- OK (44_command_control.md R221). -/
def execNop (s : State) : Host.Outcome State Fault Refusal := .next (s.complete .ok)

/-- The illegal command: raises ILLEGAL_COMMAND whatever its value, and does not clear RES (44_command_control.md
R222). -/
def execIllegal (_v : Word) (s : State) : Host.Outcome State Fault Refusal := .next (s.raise .illegalCommand)

end Sys2Proof.Machine
end

