-- ==== Sys2Proof/Machine/Encoder.lean ====
section
/-! DEFINITION. Frame encoding, as functions and as the commands ENC.CTRL and ENC.DATA (41_encode.md). -/

namespace Sys2Proof.Machine

/-- An encoded frame with its header (41_encode.md R150, R153). -/
structure EncodedFrame where
  bytes : List Byte
  header : PackedHeader
deriving DecidableEq, Repr

/-- `encode_control(t, c, p)` over the whole registers TYPE and ITEM (41_encode.md R150, R152): TYPE is checked
first, then ITEM, then the length (60_exceptions.md R235). -/
def encodeControl (t c : Word) (p : List Byte) : Except Status EncodedFrame :=
  if 3 < t.toNat then .error .invalidArgument
  else if !knownItem c then .error .invalidArgument
  else if Config.maxNonDataLen < 4 + p.length then .error .encodeTooLong
  else
    match packHeader (t.setWidth 3) (4 + p.length : Nat) with
    | .error e => .error e
    | .ok h => .ok ⟨bytesLe16 h.word ++ bytesLe16 (c.setWidth 16) ++ p, h⟩

/-- `encode_data(t, p)` over the whole register TYPE (41_encode.md R153, R154): TYPE is checked first, then the least
length of DataItem0 and DataItem1, then the length (60_exceptions.md R235). The sub-header in p is not inspected. -/
def encodeData (t : Word) (p : List Byte) : Except Status EncodedFrame :=
  if t.toNat < 4 ∨ 7 < t.toNat then .error .invalidArgument
  else if (t.toNat = 4 ∨ t.toNat = 5) ∧ p.length < 2 then .error .invalidArgument
  else
    match packHeader (t.setWidth 3) (2 + p.length : Nat) with
    | .error e => .error e
    | .ok h => .ok ⟨bytesLe16 h.word ++ p, h⟩

/-- What an encoder does with its result: RES and OUT_LEN are cleared first; a frame goes to OUT with its length,
header and escape; a failure raises its code (41_encode.md R152, R154; 60_exceptions.md R231). -/
def finishEncode (r : Except Status EncodedFrame) (s : State) : State :=
  let s0 := s.clearRes.clearOut
  match r with
  | .error e => s0.raise e
  | .ok f => { s0.writeOut f.bytes with res := packedRes f.header }.complete .ok

/-- ENC.CTRL (41_encode.md R152). -/
def execEncCtrl (s : State) : Host.Outcome State Fault Refusal :=
  .next (finishEncode (encodeControl s.frameType s.item (paramsOperand s)) s)

/-- ENC.DATA (41_encode.md R154). -/
def execEncData (s : State) : Host.Outcome State Fault Refusal :=
  .next (finishEncode (encodeData s.frameType (paramsOperand s)) s)

end Sys2Proof.Machine
end

