-- ==== Sys2Proof/Machine/Decoder.lean ====
section
/-! DEFINITION. Frame decoding, as a function and as the command DECODE (42_decode.md). -/

namespace Sys2Proof.Machine

/-- A decoded frame (42_decode.md R170): its variant, type, item code, sequence number, body offset, header word,
declared length and escape. -/
structure DecodedFrame where
  kind : FrameKind
  frameType : FrameType
  item : Half
  seq : Half
  off : Nat
  hdr : Half
  decl : Nat
  esc : Bool
deriving DecidableEq, Repr

/-- `decode` of a buffer of n bytes whose header word is w and whose sub-header is sub (42_decode.md R171): the checks
in the order EMPTY, LENGTH_MISMATCH, TRUNCATED, UNKNOWN_ITEM_CODE (R174). A buffer too short for a header word or a
sub-header fails before w or sub matters. -/
def decodeFrame (n : Nat) (w sub : Half) : Except Status DecodedFrame :=
  let u := unpackHeader w
  let t := u.frameType
  if n < 2 then .error .empty
  else if n ≠ u.decl then .error .lengthMismatch
  else if t.toNat ≤ 4 then
    if n < 4 then .error .truncated
    else if !knownItem (sub.setWidth 32) then .error .unknownItemCode
    else .ok { kind := frameKind t, frameType := t, item := sub, seq := 0, off := 4, hdr := w, decl := u.decl, esc := u.esc }
  else if t.toNat = 5 then
    if n < 4 then .error .truncated
    else
      .ok { kind := .dataWithSeq, frameType := t, item := 0, seq := sub, off := 4, hdr := w, decl := u.decl, esc := u.esc }
  else .ok { kind := .dataBare, frameType := t, item := 0, seq := 0, off := 2, hdr := w, decl := u.decl, esc := u.esc }

/-- `decode(buf)` (42_decode.md R170, R171), of a whole byte sequence. The bytes it takes for a header word or a
sub-header that the sequence does not reach are never used. -/
def decodeBuffer (buf : List Byte) : Except Status DecodedFrame :=
  decodeFrame buf.length (le16 (buf.getD 0 0) (buf.getD 1 0)) (le16 (buf.getD 2 0) (buf.getD 3 0))

/-- RES after a frame of n bytes has been decoded (42_decode.md R172). -/
def decodedRes (n : Nat) (f : DecodedFrame) : ResultGroup :=
  { kind := f.kind.code
    frameType := f.frameType.setWidth 32
    item := f.item.setWidth 32
    seq := f.seq.setWidth 32
    bodyOff := BitVec.ofNat 32 f.off
    bodyLen := BitVec.ofNat 32 (n - f.off)
    hdr := f.hdr.setWidth 32
    decLen := BitVec.ofNat 32 f.decl
    esc := flagWord f.esc }

/-- What DECODE does with its result: RES is cleared, then a frame is reported or the failure raised (42_decode.md
R172, 60_exceptions.md R231). -/
def finishDecode (r : Except Status DecodedFrame) (s : State) : State :=
  let s0 := s.clearRes
  match r with
  | .error e => s0.raise e
  | .ok f => { s0 with res := decodedRes s.inLen.toNat f }.complete .ok

/-- DECODE of IN[0..IN_LEN] where the header word is taken to be w and the sub-header sub (42_decode.md R172). -/
def decodeIn (w sub : Half) (s : State) : State := finishDecode (decodeFrame s.inLen.toNat w sub) s

/-- DECODE (42_decode.md R172): the header word is IN[0..2] and the sub-header IN[2..4]. -/
def execDecode (s : State) : Host.Outcome State Fault Refusal := .next (decodeIn (inHalf s 0) (inHalf s 2) s)

end Sys2Proof.Machine
end

