-- ==== Sys2Proof/Machine/Frames.lean ====
section
/-! DEFINITION. The frame types of a header word (30_encoding.md R93), as DECODE parses each (42_decode.md R171, R173).
The meaning of a header word is what DECODE does with the frame in IN when the word at IN[0..2] is this one: IN_LEN and
the sub-header IN[2..4] are the state's. DESIGN CHOICE, log 6; safe: with these bytes in IN it is DECODE's own effect. -/

namespace Sys2Proof.Machine

/-- SetControlItem, type 0: item code, body at 4 (42_decode.md R173). -/
def execSetControlItem (len : LengthField) (s : State) : Host.Outcome State Fault Refusal :=
  .next (decodeIn (headerWord 0 len) (inHalf s 2) s)

/-- CurrentControlItem, type 1: item code, body at 4 (42_decode.md R173). -/
def execCurrentControlItem (len : LengthField) (s : State) : Host.Outcome State Fault Refusal :=
  .next (decodeIn (headerWord 1 len) (inHalf s 2) s)

/-- ControlItemRange, type 2: item code, body at 4 (42_decode.md R173). -/
def execControlItemRange (len : LengthField) (s : State) : Host.Outcome State Fault Refusal :=
  .next (decodeIn (headerWord 2 len) (inHalf s 2) s)

/-- Ack, type 3: item code, body at 4 (42_decode.md R173). -/
def execAck (len : LengthField) (s : State) : Host.Outcome State Fault Refusal :=
  .next (decodeIn (headerWord 3 len) (inHalf s 2) s)

/-- DataItem0, type 4: item code, body at 4 (42_decode.md R173). -/
def execDataItem0 (len : LengthField) (s : State) : Host.Outcome State Fault Refusal :=
  .next (decodeIn (headerWord 4 len) (inHalf s 2) s)

/-- DataItem1, type 5: sequence number, body at 4 (42_decode.md R173). -/
def execDataItem1 (len : LengthField) (s : State) : Host.Outcome State Fault Refusal :=
  .next (decodeIn (headerWord 5 len) (inHalf s 2) s)

/-- DataItem2, type 6: no sub-header, body at 2 (42_decode.md R173). -/
def execDataItem2 (len : LengthField) (s : State) : Host.Outcome State Fault Refusal :=
  .next (decodeIn (headerWord 6 len) (inHalf s 2) s)

/-- DataItem3, type 7: no sub-header, body at 2 (42_decode.md R173). -/
def execDataItem3 (len : LengthField) (s : State) : Host.Outcome State Fault Refusal :=
  .next (decodeIn (headerWord 7 len) (inHalf s 2) s)

end Sys2Proof.Machine
end

