-- ==== Sys2Proof/Machine/Items.lean ====
section
/-! DEFINITION. The closed set of item codes (30_encoding.md R95), as DECODE reads each from a sub-header. The meaning
of an item code is what DECODE does with the frame in IN when the sub-header at IN[2..4] is this code: IN_LEN and the
header word IN[0..2] are the state's. DESIGN CHOICE, log 7; safe: with these bytes in IN it is DECODE's own effect. -/

namespace Sys2Proof.Machine

/-- None, 0x0000: a member of the set (30_encoding.md R95). -/
def execItemNone (s : State) : Host.Outcome State Fault Refusal := .next (decodeIn (inHalf s 0) 0x0000#16 s)

/-- ReceiverState, 0x0018 (30_encoding.md R95). -/
def execReceiverState (s : State) : Host.Outcome State Fault Refusal := .next (decodeIn (inHalf s 0) 0x0018#16 s)

/-- ReceiverFrequency, 0x0020 (30_encoding.md R95). -/
def execReceiverFrequency (s : State) : Host.Outcome State Fault Refusal := .next (decodeIn (inHalf s 0) 0x0020#16 s)

/-- RFFilter, 0x0044 (30_encoding.md R95). -/
def execRfFilter (s : State) : Host.Outcome State Fault Refusal := .next (decodeIn (inHalf s 0) 0x0044#16 s)

/-- ADModes, 0x008A (30_encoding.md R95). -/
def execAdModes (s : State) : Host.Outcome State Fault Refusal := .next (decodeIn (inHalf s 0) 0x008A#16 s)

/-- IQOutputDataSampleRate, 0x00B8 (30_encoding.md R95). -/
def execIqOutputDataSampleRate (s : State) : Host.Outcome State Fault Refusal :=
  .next (decodeIn (inHalf s 0) 0x00B8#16 s)

end Sys2Proof.Machine
end

