-- ==== Sys2Proof/Machine/Samples.lean ====
section
/-! DEFINITION. The sample unpacker, as a sequence and as the commands SMP.START and SMP.NEXT (43_samples.md). -/

namespace Sys2Proof.Machine

/-- `lane(b, w, i)` (43_samples.md R193): the bytes of lane i read little-endian, zero above them; no sign extension
(R196), no masking to the width (R197), no packing across bytes (R204). -/
def lane (body : List Byte) (w i : Nat) : Word :=
  BitVec.ofNat 32 (leValue ((body.drop (i * bytesPerSample w)).take (bytesPerSample w)))

/-- `count(b, w)` (43_samples.md R194): complete samples only. -/
def sampleCount (body : List Byte) (w : Nat) : Nat := body.length / bytesPerSample w

/-- `samples(w, b)` (43_samples.md R195): the width is checked before anything of the body is read. -/
def samples (w : Nat) (body : List Byte) : Except Status (List Int) :=
  if validWidth w then .ok ((List.range (sampleCount body w)).map fun i => (lane body w i).toInt)
  else .error .invalidSampleWidth

/-- SMP.START (43_samples.md R198): WIDTH is checked first, then the window, whose end is summed without wrap-around. -/
def execSmpStart (s : State) : Host.Outcome State Fault Refusal :=
  if !validWidth s.width.toNat then .next (s.clearCursor.raise .invalidSampleWidth)
  else if s.inLen.toNat < s.soff.toNat + s.slen.toNat then .next (s.clearCursor.raise .invalidArgument)
  else
    let b := bytesPerSample s.width.toNat
    let su : Cursor :=
      { state := armedState b s.width
        off := s.soff
        count := BitVec.ofNat 32 (s.slen.toNat / b)
        pos := 0
        sample := 0 }
    .next ({ s with su := su }.complete .ok)

/-- The index in IN of the lane the cursor delivers next, `SU_OFF + SU_POS · BPS` (43_samples.md R199). -/
def cursorBase (s : State) : Nat := s.su.off.toNat + s.su.pos.toNat * s.su.bps

/-- SMP.NEXT (43_samples.md R199): ARMED is checked first, then the end of the sequence, which is no error and
changes nothing but STATUS. -/
def execSmpNext (s : State) : Host.Outcome State Fault Refusal :=
  if !s.su.armed then .next (s.raise .notArmed)
  else if s.su.pos = s.su.count then .next (s.complete .sampleEnd)
  else
    let su : Cursor :=
      { s.su with
        sample := BitVec.ofNat 32 (leValue (s.inBytes (cursorBase s) s.su.bps))
        pos := s.su.pos + 1 }
    .next ({ s with su := su }.complete .ok)

end Sys2Proof.Machine
end

