-- ==== Sys2Proof/Machine/Dispatch.lean ====
section
/-! DEFINITION. One arm for each constructor of Instr, each one call of its meaning. -/

namespace Sys2Proof.Machine

def exec (i : Instr) (s : State) : Host.Outcome State Fault Refusal :=
  match i with
  | .nop => Sys2Proof.Machine.execNop s
  | .hdrPack => Sys2Proof.Machine.execHdrPack s
  | .hdrUnpack => Sys2Proof.Machine.execHdrUnpack s
  | .encCtrl => Sys2Proof.Machine.execEncCtrl s
  | .encData => Sys2Proof.Machine.execEncData s
  | .decode => Sys2Proof.Machine.execDecode s
  | .smpStart => Sys2Proof.Machine.execSmpStart s
  | .smpNext => Sys2Proof.Machine.execSmpNext s
  | .illegal v => Sys2Proof.Machine.execIllegal v s
  | .setControlItem len => Sys2Proof.Machine.execSetControlItem len s
  | .currentControlItem len => Sys2Proof.Machine.execCurrentControlItem len s
  | .controlItemRange len => Sys2Proof.Machine.execControlItemRange len s
  | .ack len => Sys2Proof.Machine.execAck len s
  | .dataItem0 len => Sys2Proof.Machine.execDataItem0 len s
  | .dataItem1 len => Sys2Proof.Machine.execDataItem1 len s
  | .dataItem2 len => Sys2Proof.Machine.execDataItem2 len s
  | .dataItem3 len => Sys2Proof.Machine.execDataItem3 len s
  | .itemNone => Sys2Proof.Machine.execItemNone s
  | .receiverState => Sys2Proof.Machine.execReceiverState s
  | .receiverFrequency => Sys2Proof.Machine.execReceiverFrequency s
  | .rfFilter => Sys2Proof.Machine.execRfFilter s
  | .adModes => Sys2Proof.Machine.execAdModes s
  | .iqOutputDataSampleRate => Sys2Proof.Machine.execIqOutputDataSampleRate s

end Sys2Proof.Machine
end

