-- ==== Sys2Proof/Machine/Step.lean ====
section
/-! DEFINITION. One step: the block performs the oldest access the host asks for, or holds its state when there is
none (20_memory.md R70, R73; 44_command_control.md R220; 60_exceptions.md R244). -/

namespace Sys2Proof.Machine

/-- One host access, or one command, as one atomic step (20_memory.md R70). -/
def step (s : State) : Host.Outcome State Fault Refusal :=
  match s.host with
  | [] => .next s
  | x :: rest =>
    match commandOf x with
    | some i => exec i { s with host := rest }
    | none => busAccess x { s with host := rest }

/-- The state with a word of spec/opcode_table.json placed so that the next step runs it (log 9). -/
def State.withFetchWord (s : State) (nbits w : Nat) : State := placeTableWord nbits w s

end Sys2Proof.Machine
end

