-- ==== Sys2Proof/Machine/HostAsm.lean ====
section
/-! DEFINITION. The host assembly of 30_encoding.md R115 and its pseudo-instructions R116, as accesses at the host port.
The program and its control flow are the host's, not the block's (10_state.md R22, 44_command_control.md R223). -/

namespace Sys2Proof.Machine

/-- One line of a host program (30_encoding.md R115, R116). -/
inductive AsmLine where
  /-- `wr REG, v` -/
  | wr (r : Reg) (v : Word)
  /-- `rd REG` -/
  | rd (r : Reg)
  /-- `wrb IN[i], b` -/
  | wrb (i : Nat) (b : Byte)
  /-- `rdb IN[i]` -/
  | rdbIn (i : Nat)
  /-- `rdb OUT[i]` -/
  | rdbOut (i : Nat)
  /-- a command's mnemonic; for what is no command the line writes 0, as NOP's does (DESIGN CHOICE, log 19) -/
  | run (i : Instr)
  /-- `label:` -/
  | label (l : String)
  /-- `if rd(REG) == v goto label` -/
  | ifEq (r : Reg) (v : Word) (l : String)
  /-- `if rd(REG) != v goto label` -/
  | ifNe (r : Reg) (v : Word) (l : String)
  /-- `goto label` -/
  | goto (l : String)
  /-- `load [b0, …]`; `load zeros(n)` is the load of n zero bytes -/
  | load (bs : List Byte)
  /-- `hdr.pack t, L` -/
  | hdrPack (t total : Word)
  /-- `hdr.unpack w` -/
  | hdrUnpack (w : Word)
  /-- `enc.ctrl t, c` -/
  | encCtrl (t c : Word)
  /-- `enc.data t` -/
  | encData (t : Word)
  /-- `smp.start w, o, n` -/
  | smpStart (w o n : Word)
  /-- `smp.body w` -/
  | smpBody (w : Word)
  /-- `loopback` -/
  | loopback
deriving DecidableEq, Repr

/-- The write `wr REG, v` makes (30_encoding.md R115). -/
def wrAccess (r : Reg) (v : Word) : HostAccess := .write 4 (BitVec.ofNat 18 r.offset) v

/-- The read `rd REG` makes (30_encoding.md R115). -/
def rdAccess (r : Reg) : HostAccess := .read 4 (BitVec.ofNat 18 r.offset)

/-- The write `wrb IN[i], b` makes (30_encoding.md R115). -/
def wrbAccess (i : Nat) (b : Byte) : HostAccess := .write 1 (BitVec.ofNat 18 (inBase + i)) (b.setWidth 32)

/-- The read `rdb IN[i]` makes (30_encoding.md R115). -/
def rdbInAccess (i : Nat) : HostAccess := .read 1 (BitVec.ofNat 18 (inBase + i))

/-- The read `rdb OUT[i]` makes (30_encoding.md R115). -/
def rdbOutAccess (i : Nat) : HostAccess := .read 1 (BitVec.ofNat 18 (outBase + i))

/-- The write that runs a command (30_encoding.md R115). -/
def runAccess (i : Instr) : HostAccess := wrAccess .cmd (commandWord i)

/-- The accesses of `load` (30_encoding.md R116): the bytes in order, then IN_LEN. -/
def loadAccesses (bs : List Byte) : List HostAccess :=
  ((List.range bs.length).map fun i => wrbAccess i (bs.getD i 0)) ++ [wrAccess .inLen (BitVec.ofNat 32 bs.length)]

/-- The accesses of `smp.start w, o, n` (30_encoding.md R116). -/
def smpStartAccesses (w o n : Word) : List HostAccess :=
  [wrAccess .width w, wrAccess .soff o, wrAccess .slen n, runAccess .smpStart]

/-- The accesses of `loopback` (30_encoding.md R116; 95_test_vectors.md program P1 reads OUT_LEN first). What its reads
return are the block's OUT_LEN and OUT bytes, which its writes to IN do not change. -/
def loopbackAccesses (s : State) : List HostAccess :=
  rdAccess .outLen ::
    ((List.range s.outLen.toNat).flatMap fun i => [rdbOutAccess i, wrbAccess i (s.outByte i)]) ++
    [wrAccess .inLen s.outLen]

/-- The accesses a line makes at the host port when the block's state is s (30_encoding.md R115, R116). -/
def AsmLine.accesses (line : AsmLine) (s : State) : List HostAccess :=
  match line with
  | .wr r v => [wrAccess r v]
  | .rd r => [rdAccess r]
  | .wrb i b => [wrbAccess i b]
  | .rdbIn i => [rdbInAccess i]
  | .rdbOut i => [rdbOutAccess i]
  | .run i => [runAccess i]
  | .label _ => []
  | .ifEq r _ _ => [rdAccess r]
  | .ifNe r _ _ => [rdAccess r]
  | .goto _ => []
  | .load bs => loadAccesses bs
  | .hdrPack t total => [wrAccess .frameType t, wrAccess .tlen total, runAccess .hdrPack]
  | .hdrUnpack w => [wrAccess .hdr w, runAccess .hdrUnpack]
  | .encCtrl t c => [wrAccess .frameType t, wrAccess .item c, runAccess .encCtrl]
  | .encData t => [wrAccess .frameType t, runAccess .encData]
  | .smpStart w o n => smpStartAccesses w o n
  | .smpBody w =>
    rdAccess .rBodyOff :: rdAccess .rBodyLen :: smpStartAccesses w s.res.bodyOff s.res.bodyLen
  | .loopback => loopbackAccesses s

/-- The block performs accesses one after another, in order (20_memory.md R73), each as one step. -/
def runAccesses (s : State) : List HostAccess → Host.Outcome State Fault Refusal
  | [] => .next s
  | x :: rest =>
    match step { s with host := [x] } with
    | .next t => runAccesses t rest
    | .fault r => .fault r
    | .refused r => .refused r

/-- A running host program: the block, and the index of the line that runs next. -/
structure HostRun where
  block : State
  next : Nat
deriving DecidableEq, Repr

/-- The line a `goto` leads to. 30_encoding.md R115 says nothing of a label that a program carries twice or not at all:
the first line that carries it, or the end of the program if none does. DESIGN CHOICE, log 19; unsafe for such programs
only. -/
def labelLine (prog : List AsmLine) (l : String) : Nat := prog.findIdx fun x => x == .label l

/-- The line that runs after one, once its accesses have been made: the branch is the host's, taken on what its read
returned (30_encoding.md R115). -/
def AsmLine.following (line : AsmLine) (prog : List AsmLine) (pc : Nat) (read : Word) : Nat :=
  match line with
  | .ifEq _ v l => if read = v then labelLine prog l else pc + 1
  | .ifNe _ v l => if read = v then pc + 1 else labelLine prog l
  | .goto l => labelLine prog l
  | .wr _ _ | .rd _ | .wrb _ _ | .rdbIn _ | .rdbOut _ | .run _ | .label _ => pc + 1
  | .load _ | .hdrPack _ _ | .hdrUnpack _ | .encCtrl _ _ | .encData _ => pc + 1
  | .smpStart _ _ _ | .smpBody _ | .loopback => pc + 1

/-- One line of a host program; past its end nothing happens any more (DESIGN CHOICE, log 19). -/
def asmStep (prog : List AsmLine) (h : HostRun) : Host.Outcome HostRun Fault Refusal :=
  match prog[h.next]? with
  | none => .next h
  | some line =>
    match runAccesses h.block (line.accesses h.block) with
    | .next t => .next { block := t, next := line.following prog h.next t.readData }
    | .fault r => .fault r
    | .refused r => .refused r

end Sys2Proof.Machine
end

