-- ==== Sys2Proof/Safety.lean ====
section
/-! DEFINITION. What a good state of the block is, and what can happen between two commands, in the terms the statements
use. -/

namespace Sys2Proof.Machine

/-- Every listed byte lies in IN or in OUT (20_memory.md R61). -/
def memoryInBuffers (m : Memory) : Prop :=
  ∀ c ∈ m, (inBase ≤ c.1 ∧ c.1 < inBase + Config.inCap) ∨ (outBase ≤ c.1 ∧ c.1 < outBase + Config.outCap)

/-- The memory is canonical and holds bytes of the buffers only. -/
structure MemoryGood (s : State) : Prop where
  canonical : s.mem.wf
  inBuffers : memoryInBuffers s.mem

/-- STATUS holds one of the codes of 60_exceptions.md R230, so bits 31:8 are 0 (10_state.md R26). -/
def StatusGood (s : State) : Prop := ∃ c : Status, s.status = c.code

/-- IN_LEN is within IN; OUT_LEN is 0 or 2..8194, and every byte below it has been written (10_state.md R34, R35;
20_memory.md R76). -/
structure LengthsGood (s : State) : Prop where
  inLen : s.inLen.toNat ≤ Config.inCap
  outLen : s.outLen = 0 ∨ (2 ≤ s.outLen.toNat ∧ s.outLen.toNat ≤ Config.outCap)
  outWritten : ∀ i, i < s.outLen.toNat → (s.mem.get (outBase + i)).isSome

/-- The result registers hold nothing outside the fields used and the values of 10_state.md R23. -/
structure ResultsGood (r : ResultGroup) : Prop where
  kind : r.kind.toNat < 4
  frameType : r.frameType.toNat < 8
  item : r.item.toNat < 65536
  seq : r.seq.toNat < 65536
  bodyOff : r.bodyOff = 0 ∨ r.bodyOff = 2 ∨ r.bodyOff = 4
  bodyLen : r.bodyLen.toNat ≤ 8192
  hdr : r.hdr.toNat < 65536
  decLen : r.decLen.toNat ≤ Config.maxDataLen
  esc : r.esc = 0 ∨ r.esc = 1

/-- The bits of SU_STATE outside ARMED, BPS and WIDTH (10_state.md R23, R40). -/
def suReservedMask : Word := 0xFFC0F8FE#32

/-- The cursor registers are consistent (10_state.md R40 to R42; 43_samples.md R202): reserved bits 0; WIDTH 0 with
BPS 0, or WIDTH 1..32 with BPS = ceil(WIDTH / 8); SU_POS ≤ SU_COUNT ≤ 65535; and while armed, a legal width and every
lane within IN_LEN. -/
structure CursorGood (s : State) : Prop where
  reserved : s.su.state &&& suReservedMask = 0
  bps : s.su.bps = bytesPerSample s.su.width
  width : s.su.width ≤ 32
  pos : s.su.pos.toNat ≤ s.su.count.toNat
  count : s.su.count.toNat ≤ 65535
  armedWidth : s.su.armed = true → 1 ≤ s.su.width
  lanes : s.su.armed = true → s.su.off.toNat + s.su.count.toNat * s.su.bps ≤ s.inLen.toNat

/-- All of it. -/
structure State.Good (s : State) : Prop where
  memory : MemoryGood s
  status : StatusGood s
  lengths : LengthsGood s
  results : ResultsGood s.res
  cursor : CursorGood s

/-! ## What happens between two commands -/

/-- One thing that happens to the block: an instruction runs (a header word or an item code as one is the model's
choice, logs 6 and 7), or the host port performs an access, which may itself run a command. -/
inductive Event where
  | run (i : Instr)
  | access (x : HostAccess)
deriving DecidableEq, Repr

/-- The instruction an event runs, if it runs one. -/
def Event.instr : Event → Option Instr
  | .run i => some i
  | .access x => commandOf x

/-- One event, to completion: an instruction, or a step with that one access pending. -/
def happen (s : State) : Event → Host.Outcome State Fault Refusal
  | .run i => exec i s
  | .access x => step { s with host := [x] }

/-- Events one after another, each to completion (44_command_control.md R220, 20_memory.md R73). -/
def happenAll (s : State) : List Event → Host.Outcome State Fault Refusal
  | [] => .next s
  | e :: rest =>
    match happen s e with
    | .next t => happenAll t rest
    | .fault r => .fault r
    | .refused r => .refused r

/-- A host write to a byte of IN or to IN_LEN, the writes that disarm the cursor (20_memory.md R75). -/
def writesInput : HostAccess → Prop
  | .write _ a _ => (∃ i, target a = .inByte i) ∨ a.toNat = Reg.inLen.offset
  | .read _ _ => False
  | .reset => False

/-- Events that leave IN and IN_LEN as they are: any but a host write to them and the reset input. -/
def keepsInput (between : List Event) : Prop :=
  ∀ x, Event.access x ∈ between → ¬ writesInput x ∧ x ≠ .reset

/-- The states after k SMP.NEXT commands. -/
def nextSamples (s : State) (k : Nat) : Host.Outcome State Fault Refusal := happenAll s (List.replicate k (.run .smpNext))

/-- The codes a command can raise (60_exceptions.md R233); SAMPLE_END is no error. -/
def raisedCodes : Instr → List Word
  | .nop => []
  | .hdrPack => [0x06, 0x07]
  | .hdrUnpack => [0x07]
  | .encCtrl => [0x06, 0x07]
  | .encData => [0x06, 0x07]
  | .decode => [0x01, 0x02, 0x03, 0x04]
  | .smpStart => [0x05, 0x07]
  | .smpNext => [0x09]
  | .illegal _ => [0x0A]
  | .setControlItem _ | .currentControlItem _ | .controlItemRange _ | .ack _ => [0x01, 0x02, 0x03, 0x04]
  | .dataItem0 _ | .dataItem1 _ | .dataItem2 _ | .dataItem3 _ => [0x01, 0x02, 0x03, 0x04]
  | .itemNone | .receiverState | .receiverFrequency => [0x01, 0x02, 0x03, 0x04]
  | .rfFilter | .adModes | .iqOutputDataSampleRate => [0x01, 0x02, 0x03, 0x04]

/-! ## The spec's own arithmetic, for statements (not used by the machine) -/

/-- The type number of a header word, `w[15:13]` (30_encoding.md R91). -/
def typeNumber (w : Half) : Nat := w.toNat / 8192

/-- The declared length of a header word (30_encoding.md R98, R99). -/
def declaredLength (w : Half) : Nat :=
  if 4 ≤ typeNumber w ∧ w.toNat % 8192 = 0 then 8194 else w.toNat % 8192

/-- Whether a header word carries the escape (10_state.md R47). -/
def escapeNumber (w : Half) : Nat := if 4 ≤ typeNumber w ∧ w.toNat % 8192 = 0 then 1 else 0

/-- The number R_KIND holds for a type (30_encoding.md R97). -/
def kindNumber (t : Nat) : Nat := if t ≤ 3 then 0 else if t = 4 then 1 else if t = 5 then 2 else 3

/-- The closed set of item codes as numbers (30_encoding.md R95). -/
def itemNumbers : List Nat := [0x0000, 0x0018, 0x0020, 0x0044, 0x008A, 0x00B8]

/-- The state a codec command leaves when it raises and touches no buffer: RES 0 and STATUS the code (60_exceptions.md
R231). -/
def afterRaise (code : Word) (s : State) : State := { s with res := ResultGroup.zero, status := code }

/-- The state an encoder leaves when it raises (60_exceptions.md R231). -/
def afterEncodeRaise (code : Word) (s : State) : State :=
  { s with res := ResultGroup.zero, outLen := 0, status := code }

/-- The state a raising SMP.START leaves (60_exceptions.md R231). -/
def afterStartRaise (code : Word) (s : State) : State := { s with su := Cursor.zero, status := code }

/-- The result group with every member given as a number. -/
def resultsOf (kind frameType item seq bodyOff bodyLen hdr decLen esc : Nat) : ResultGroup :=
  { kind := BitVec.ofNat 32 kind, frameType := BitVec.ofNat 32 frameType, item := BitVec.ofNat 32 item,
    seq := BitVec.ofNat 32 seq, bodyOff := BitVec.ofNat 32 bodyOff, bodyLen := BitVec.ofNat 32 bodyLen,
    hdr := BitVec.ofNat 32 hdr, decLen := BitVec.ofNat 32 decLen, esc := BitVec.ofNat 32 esc }

/-- Every byte of the buffers outside the addresses lo..hi−1 reads as before. -/
def sameBytesOutside (lo hi : Nat) (s t : State) : Prop :=
  ∀ a, a < lo ∨ hi ≤ a → t.byteAt a = s.byteAt a

/-- The operand registers, IN_LEN and the model's own fields are unchanged (10_state.md R22: the host writes them). -/
def sameOperands (s t : State) : Prop :=
  t.frameType = s.frameType ∧ t.item = s.item ∧ t.tlen = s.tlen ∧ t.hdr = s.hdr ∧ t.width = s.width ∧
    t.soff = s.soff ∧ t.slen = s.slen ∧ t.inLen = s.inLen ∧ t.host = s.host ∧ t.readData = s.readData ∧
    t.draws = s.draws ∧ t.resets = s.resets

end Sys2Proof.Machine
end

