-- ==== Sys2Proof/Certificates/Slice0/Obligations.lean ====
section
/-! DEFINITION. The statements for the provers. Each docstring names the rule of spec/ it formalises, or says that it
states a choice of the model and names the log entry. -/

open Sys2Proof Sys2Proof.Machine

/-! ## Commands: results, flags and frames -/

/-- 44_command_control.md R221. -/
def Obligations.NopSetsStatusOkOnly : Prop :=
  decodeCommand 0x00000000 = .nop ∧ ∀ s : State, exec .nop s = .next { s with status := 0 }

/-- 44_command_control.md R222: every value it names decodes to the illegal command, which changes STATUS only. -/
def Obligations.IllegalCommandRaisesOnly : Prop :=
  ∀ (v : Word) (s : State), (v.toNat / 256 ≠ 0 ∨ 8 ≤ v.toNat % 256) →
    decodeCommand v = .illegal v ∧ exec (decodeCommand v) s = .next { s with status := 0x0A }

/-- 40_header.md R133, with the input classes of R131. -/
def Obligations.HeaderPackResults : Prop :=
  decodeCommand 0x00000001 = .hdrPack ∧ ∀ s : State,
    let t := s.frameType.toNat
    let l := s.tlen.toInt
    (7 < t → exec .hdrPack s = .next (afterRaise 0x07 s)) ∧
    (t ≤ 7 → l < 0 → exec .hdrPack s = .next (afterRaise 0x07 s)) ∧
    (t ≤ 7 → 0 ≤ l → l ≤ 8191 →
      exec .hdrPack s = .next { s with res := resultsOf 0 0 0 0 0 0 (l.toNat + t * 8192) 0 0, status := 0 }) ∧
    (4 ≤ t → t ≤ 7 → l = 8194 →
      exec .hdrPack s = .next { s with res := resultsOf 0 0 0 0 0 0 (t * 8192) 0 1, status := 0 }) ∧
    (t ≤ 7 → 8191 < l → ¬(4 ≤ t ∧ l = 8194) → exec .hdrPack s = .next (afterRaise 0x06 s))

/-- 40_header.md R134. -/
def Obligations.HeaderUnpackResults : Prop :=
  decodeCommand 0x00000002 = .hdrUnpack ∧ ∀ s : State,
    (0xFFFF < s.hdr.toNat → exec .hdrUnpack s = .next (afterRaise 0x07 s)) ∧
    (s.hdr.toNat ≤ 0xFFFF →
      let w : Half := s.hdr.setWidth 16
      exec .hdrUnpack s = .next
        { s with
          res := resultsOf (kindNumber (s.hdr.toNat / 8192)) (s.hdr.toNat / 8192) 0 0 0 0 s.hdr.toNat
            (declaredLength w) (escapeNumber w)
          status := 0 })

/-- 41_encode.md R152: the three raises in their order, and the frame. Every byte outside OUT[0..total] is as before. -/
def Obligations.ControlEncodeResults : Prop :=
  decodeCommand 0x00000003 = .encCtrl ∧ ∀ s : State,
    let t := s.frameType.toNat
    let n := s.inLen.toNat
    (3 < t → exec .encCtrl s = .next (afterEncodeRaise 0x07 s)) ∧
    (t ≤ 3 → s.item.toNat ∉ itemNumbers → exec .encCtrl s = .next (afterEncodeRaise 0x07 s)) ∧
    (t ≤ 3 → s.item.toNat ∈ itemNumbers → 8191 < 4 + n → exec .encCtrl s = .next (afterEncodeRaise 0x06 s)) ∧
    (t ≤ 3 → s.item.toNat ∈ itemNumbers → 4 + n ≤ 8191 →
      ∃ u, exec .encCtrl s = .next u ∧
        u = { s with
          res := resultsOf 0 0 0 0 0 0 (4 + n + t * 8192) 0 0
          outLen := BitVec.ofNat 32 (4 + n)
          mem := u.mem
          status := 0 } ∧
        (u.outByte 0).toNat = (4 + n) % 256 ∧
        (u.outByte 1).toNat = t * 32 + (4 + n) / 256 ∧
        (u.outByte 2).toNat = s.item.toNat % 256 ∧
        (u.outByte 3).toNat = s.item.toNat / 256 ∧
        (∀ i, i < n → u.outByte (4 + i) = s.inByte i) ∧
        sameBytesOutside outBase (outBase + (4 + n)) s u)

/-- 41_encode.md R154: the raises in their order, and the frame with and without the escape. Every byte outside
OUT[0..total] is as before. -/
def Obligations.DataEncodeResults : Prop :=
  decodeCommand 0x00000004 = .encData ∧ ∀ s : State,
    let t := s.frameType.toNat
    let n := s.inLen.toNat
    (t < 4 ∨ 7 < t → exec .encData s = .next (afterEncodeRaise 0x07 s)) ∧
    (t = 4 ∨ t = 5 → n < 2 → exec .encData s = .next (afterEncodeRaise 0x07 s)) ∧
    (4 ≤ t → t ≤ 7 → 8191 < 2 + n → 2 + n ≠ 8194 → exec .encData s = .next (afterEncodeRaise 0x06 s)) ∧
    (4 ≤ t → t ≤ 7 → ¬((t = 4 ∨ t = 5) ∧ n < 2) → (2 + n ≤ 8191 ∨ 2 + n = 8194) →
      let field := if 2 + n = 8194 then 0 else 2 + n
      ∃ u, exec .encData s = .next u ∧
        u = { s with
          res := resultsOf 0 0 0 0 0 0 (field + t * 8192) 0 (if 2 + n = 8194 then 1 else 0)
          outLen := BitVec.ofNat 32 (2 + n)
          mem := u.mem
          status := 0 } ∧
        (u.outByte 0).toNat = field % 256 ∧
        (u.outByte 1).toNat = t * 32 + field / 256 ∧
        (∀ i, i < n → u.outByte (2 + i) = s.inByte i) ∧
        sameBytesOutside outBase (outBase + (2 + n)) s u)

/-- 42_decode.md R172 with R171: the four failures in their order, and the three shapes of a decoded frame. -/
def Obligations.DecodeResults : Prop :=
  decodeCommand 0x00000005 = .decode ∧ ∀ s : State,
    let n := s.inLen.toNat
    let w := inHalf s 0
    let t := typeNumber w
    let c := (inHalf s 2).toNat
    let d := declaredLength w
    let e := escapeNumber w
    (n < 2 → exec .decode s = .next (afterRaise 0x01 s)) ∧
    (2 ≤ n → n ≠ d → exec .decode s = .next (afterRaise 0x02 s)) ∧
    (2 ≤ n → n = d → t ≤ 5 → n < 4 → exec .decode s = .next (afterRaise 0x04 s)) ∧
    (4 ≤ n → n = d → t ≤ 4 → c ∉ itemNumbers → exec .decode s = .next (afterRaise 0x03 s)) ∧
    (4 ≤ n → n = d → t ≤ 4 → c ∈ itemNumbers →
      exec .decode s = .next
        { s with res := resultsOf (kindNumber t) t c 0 4 (n - 4) w.toNat d e, status := 0 }) ∧
    (4 ≤ n → n = d → t = 5 →
      exec .decode s = .next { s with res := resultsOf 2 5 0 c 4 (n - 4) w.toNat d e, status := 0 }) ∧
    (2 ≤ n → n = d → 6 ≤ t →
      exec .decode s = .next { s with res := resultsOf 3 t 0 0 2 (n - 2) w.toNat d e, status := 0 })

/-- 43_samples.md R198. -/
def Obligations.SampleStartResults : Prop :=
  decodeCommand 0x00000006 = .smpStart ∧ ∀ s : State,
    let w := s.width.toNat
    (w < 1 ∨ 32 < w → exec .smpStart s = .next (afterStartRaise 0x05 s)) ∧
    (1 ≤ w → w ≤ 32 → s.inLen.toNat < s.soff.toNat + s.slen.toNat →
      exec .smpStart s = .next (afterStartRaise 0x07 s)) ∧
    (1 ≤ w → w ≤ 32 → s.soff.toNat + s.slen.toNat ≤ s.inLen.toNat →
      exec .smpStart s = .next
        { s with
          su :=
            { state := BitVec.ofNat 32 (1 + (w + 7) / 8 * 256 + w * 65536)
              off := s.soff
              count := BitVec.ofNat 32 (s.slen.toNat / ((w + 7) / 8))
              pos := 0
              sample := 0 }
          status := 0 })

/-- 43_samples.md R199. -/
def Obligations.SampleNextResults : Prop :=
  decodeCommand 0x00000007 = .smpNext ∧ ∀ s : State,
    let armed := s.su.state.toNat % 2
    let bps := s.su.state.toNat / 256 % 8
    let base := s.su.off.toNat + s.su.pos.toNat * bps
    (armed = 0 → exec .smpNext s = .next { s with status := 0x09 }) ∧
    (armed = 1 → s.su.pos = s.su.count → exec .smpNext s = .next { s with status := 0x08 }) ∧
    (armed = 1 → s.su.pos ≠ s.su.count →
      exec .smpNext s = .next
        { s with
          su :=
            { s.su with
              sample := BitVec.ofNat 32 (∑ j ∈ Finset.range bps, (s.inByte (base + j)).toNat * 256 ^ j)
              pos := s.su.pos + 1 }
          status := 0 })

/-- 60_exceptions.md R231: the state a command leaves when it raises, with the code that `raise` gives STATUS, one of
those R233 lists for the command. SAMPLE_END (8) is no error. -/
def Obligations.RaisingLeavesOnlyTheListedEffects : Prop :=
  (∀ (s : State) (x : Status), s.raise x = { s with status := x.code }) ∧
  ∀ (i : Instr) (s t : State), i.domain = .command → exec i s = .next t → t.status ≠ 0 → t.status ≠ 8 →
    t.status ∈ raisedCodes i ∧
    t = match i with
      | .nop | .smpNext | .illegal _ => { s with status := t.status }
      | .smpStart => { s with su := Cursor.zero, status := t.status }
      | .encCtrl | .encData => { s with res := ResultGroup.zero, outLen := 0, status := t.status }
      | _ => { s with res := ResultGroup.zero, status := t.status }

/-- 10_state.md R22: no command writes an operand register, IN_LEN or IN; only the encoders write OUT and OUT_LEN;
only SMP.START and SMP.NEXT write the cursor; and those two, NOP and the illegal command leave RES (R48). The header
words and item codes are of DECODE's group (the model's choice, logs 6 and 7). -/
def Obligations.CommandsWriteOnlyTheirGroups : Prop :=
  ∀ (i : Instr) (s : State), ∃ t, exec i s = .next t ∧
    sameOperands s t ∧
    (∀ a, a < outBase → t.byteAt a = s.byteAt a) ∧
    (i ≠ .encCtrl → i ≠ .encData → t.mem = s.mem ∧ t.outLen = s.outLen) ∧
    (i ≠ .smpStart → i ≠ .smpNext → t.su = s.su) ∧
    ((i = .nop ∨ i = .smpStart ∨ i = .smpNext ∨ ∃ v, i = .illegal v) → t.res = s.res)

/-- 20_memory.md R72: every command but SMP.NEXT is idempotent; header words and item codes as DECODE is (the model's
choice, logs 6 and 7). -/
def Obligations.CommandsAreIdempotent : Prop :=
  ∀ (i : Instr) (s t : State), i ≠ .smpNext → s.mem.wf → exec i s = .next t → exec i t = .next t

/-- 20_memory.md R76: no command reads a byte of IN at or beyond IN_LEN. Two states that differ only in bytes of
memory, and agree on IN[0..IN_LEN], end with the same status, results, cursor, OUT_LEN and, where an encoder wrote a
frame, the same OUT. Header words and item codes read as DECODE does (the model's choice, logs 6 and 7). -/
def Obligations.CommandsIgnoreBytesBeyondTheValidLength : Prop :=
  ∀ (i : Instr) (s : State) (m : Memory) (t u : State), CursorGood s →
    (∀ j, j < s.inLen.toNat → ({ s with mem := m } : State).inByte j = s.inByte j) →
    exec i s = .next t → exec i { s with mem := m } = .next u →
    u = { t with mem := u.mem } ∧
    ((i = .encCtrl ∨ i = .encData) → ∀ j, j < t.outLen.toNat → u.outByte j = t.outByte j)

/-! ## Frames and item codes as instructions (the model's choices, logs 6 and 7) -/

/-- The model's choice, log 6: a header word of types 0 to 4, for a frame of its declared length with a known item
code, has the effect 42_decode.md gives DECODE. -/
def Obligations.ItemFramesDecode : Prop :=
  ∀ (s : State) (len : LengthField) (x : Instr × Nat),
    x ∈ [(Instr.setControlItem len, 0), (.currentControlItem len, 1), (.controlItemRange len, 2), (.ack len, 3),
      (.dataItem0 len, 4)] →
    let d := if 4 ≤ x.2 ∧ len.toNat = 0 then 8194 else len.toNat
    let c := (inHalf s 2).toNat
    s.inLen.toNat = d → 4 ≤ d → c ∈ itemNumbers →
    exec x.1 s = .next
      { s with
        res := resultsOf (if x.2 = 4 then 1 else 0) x.2 c 0 4 (d - 4) (len.toNat + x.2 * 8192) d
          (if d = 8194 then 1 else 0)
        status := 0 }

/-- The model's choice, log 6: a header word of type 5, for a frame of its declared length. -/
def Obligations.SequenceFrameDecodes : Prop :=
  ∀ (s : State) (len : LengthField),
    let d := if len.toNat = 0 then 8194 else len.toNat
    s.inLen.toNat = d → 4 ≤ d →
    exec (.dataItem1 len) s = .next
      { s with
        res := resultsOf 2 5 0 (inHalf s 2).toNat 4 (d - 4) (len.toNat + 40960) d (if d = 8194 then 1 else 0)
        status := 0 }

/-- The model's choice, log 6: a header word of types 6 and 7, for a frame of its declared length. -/
def Obligations.BareFramesDecode : Prop :=
  ∀ (s : State) (len : LengthField) (x : Instr × Nat), x ∈ [(Instr.dataItem2 len, 6), (.dataItem3 len, 7)] →
    let d := if len.toNat = 0 then 8194 else len.toNat
    s.inLen.toNat = d → 2 ≤ d →
    exec x.1 s = .next
      { s with
        res := resultsOf 3 x.2 0 0 2 (d - 2) (len.toNat + x.2 * 8192) d (if d = 8194 then 1 else 0)
        status := 0 }

/-- The model's choice, log 7: an item code, in a frame in IN that carries one, has the effect 42_decode.md gives
DECODE with that sub-header. -/
def Obligations.ItemCodesDecode : Prop :=
  ∀ (s : State) (x : Instr × Nat),
    x ∈ [(Instr.itemNone, 0x0000), (.receiverState, 0x0018), (.receiverFrequency, 0x0020), (.rfFilter, 0x0044),
      (.adModes, 0x008A), (.iqOutputDataSampleRate, 0x00B8)] →
    let w := inHalf s 0
    let t := typeNumber w
    let n := s.inLen.toNat
    4 ≤ n → n = declaredLength w → t ≤ 4 →
    exec x.1 s = .next
      { s with res := resultsOf (kindNumber t) t x.2 0 4 (n - 4) w.toNat n (escapeNumber w), status := 0 }

/-- The model's choice, logs 6 and 7: DECODE runs exactly the instruction its header word decodes to, and, where the
sub-header is an item code, that item code's instruction. -/
def Obligations.DecodeRunsTheHeaderAndTheItem : Prop :=
  ∀ s : State, exec (decodeHeader (inHalf s 0)) s = exec .decode s ∧
    ∀ i, decodeItem (inHalf s 2) = some i → exec i s = exec .decode s

/-! ## Encoding -/

/-- 30_encoding.md R111, the eight opcodes, and one word of each frame type and item code (R93, R95). -/
def Obligations.WrittenOutWordsDecode : Prop :=
  decodeCommand 0x00000000 = .nop ∧ decodeCommand 0x00000001 = .hdrPack ∧ decodeCommand 0x00000002 = .hdrUnpack ∧
  decodeCommand 0x00000003 = .encCtrl ∧ decodeCommand 0x00000004 = .encData ∧ decodeCommand 0x00000005 = .decode ∧
  decodeCommand 0x00000006 = .smpStart ∧ decodeCommand 0x00000007 = .smpNext ∧
  decodeCommand 0x00000105 = .illegal 0x105 ∧
  decodeHeader 0x0009 = .setControlItem 9 ∧ decodeHeader 0x2004 = .currentControlItem 4 ∧
  decodeHeader 0x5FFF = .controlItemRange 8191 ∧ decodeHeader 0x7D50 = .ack 7504 ∧
  decodeHeader 0x8000 = .dataItem0 0 ∧ decodeHeader 0xA008 = .dataItem1 8 ∧ decodeHeader 0xDD4E = .dataItem2 7502 ∧
  decodeHeader 0xE001 = .dataItem3 1 ∧
  decodeItem 0x0000 = some .itemNone ∧ decodeItem 0x0018 = some .receiverState ∧
  decodeItem 0x0020 = some .receiverFrequency ∧ decodeItem 0x0044 = some .rfFilter ∧
  decodeItem 0x008A = some .adModes ∧ decodeItem 0x00B8 = some .iqOutputDataSampleRate ∧ decodeItem 0x0001 = none

/-- Decode and encode agree: every well-formed instruction, whatever bytes follow it. -/
def Obligations.DecodeOfEncode : Prop :=
  ∀ (i : Instr) (rest : List Byte), i.wellFormed = true → decodeBytes i.domain (encode i ++ rest) = .ok (i, rest)

/-- The other direction: bytes that decode are the encoding of what they decode to, which is well formed and of the
domain they were read in. -/
def Obligations.EncodeOfDecode : Prop :=
  ∀ (d : Domain) (bs rest : List Byte) (i : Instr), decodeBytes d bs = .ok (i, rest) →
    i.wellFormed = true ∧ i.domain = d ∧ bs = encode i ++ rest

/-- 40_header.md R135. -/
def Obligations.HeaderFieldsAreExact : Prop :=
  (∀ w : Half, w = headerWord (unpackHeader w).frameType (unpackHeader w).raw ∧
      (headerWord (unpackHeader w).frameType (unpackHeader w).raw).toNat
        = (unpackHeader w).raw.toNat + (unpackHeader w).frameType.toNat * 8192) ∧
  (∀ (t : FrameType) (raw : LengthField), ∃! w : Half, (unpackHeader w).frameType = t ∧ (unpackHeader w).raw = raw)

/-- 40_header.md R136 (a) to (d). -/
def Obligations.HeaderRoundTrips : Prop :=
  (∀ (t : FrameType) (l : Nat), 1 ≤ l → l ≤ 8191 →
    ∃ p, packHeader t l = .ok p ∧ (unpackHeader p.word).frameType = t ∧ (unpackHeader p.word).decl = l) ∧
  (∀ t : FrameType, 4 ≤ t.toNat →
    ∃ p, packHeader t 8194 = .ok p ∧ (unpackHeader p.word).frameType = t ∧ (unpackHeader p.word).decl = 8194 ∧
      (unpackHeader p.word).esc = true) ∧
  (∀ t : FrameType,
    ∃ p, packHeader t 0 = .ok p ∧ (unpackHeader p.word).decl = if 4 ≤ t.toNat then 8194 else 0) ∧
  (∀ w : Half, ∃ p, packHeader (unpackHeader w).frameType (unpackHeader w).decl = .ok p ∧ p.word = w)

/-! ## Encoders and the decoder together -/

/-- 41_encode.md R155. -/
def Obligations.HeaderLengthIsTheFrameLength : Prop :=
  ∀ (i : Instr) (s t : State), (i = .encCtrl ∨ i = .encData) → exec i s = .next t → t.status = 0 →
    let w := le16 (t.outByte 0) (t.outByte 1)
    w.toNat / 8192 = s.frameType.toNat ∧
    w.toNat % 8192 = if 4 ≤ s.frameType.toNat ∧ t.outLen.toNat = 8194 then 0 else t.outLen.toNat

/-- 41_encode.md R156, its first sentence. -/
def Obligations.EncodedFrameSizes : Prop :=
  ∀ s t : State, t.status = 0 →
    (exec .encCtrl s = .next t → 4 ≤ t.outLen.toNat ∧ t.outLen.toNat ≤ 8191) ∧
    (exec .encData s = .next t →
      (t.outLen.toNat ≤ 8191 ∨ t.outLen.toNat = 8194) ∧
      (if s.frameType.toNat = 4 ∨ s.frameType.toNat = 5 then 4 ≤ t.outLen.toNat else 2 ≤ t.outLen.toNat))

/-- 41_encode.md R157: the frame depends on TYPE, ITEM (ENC.CTRL only) and IN[0..IN_LEN] alone. -/
def Obligations.EncodersDependOnTheirOperandsOnly : Prop :=
  ∀ (i : Instr) (s u s' u' : State), (i = .encCtrl ∨ i = .encData) →
    u.frameType = s.frameType → (i = .encCtrl → u.item = s.item) → u.inLen = s.inLen →
    (∀ j, j < s.inLen.toNat → u.inByte j = s.inByte j) →
    exec i s = .next s' → exec i u = .next u' →
    u'.status = s'.status ∧ u'.outLen = s'.outLen ∧ u'.res = s'.res ∧
      ∀ j, j < s'.outLen.toNat → u'.outByte j = s'.outByte j

/-- 42_decode.md R176, the row of ENC.CTRL: a frame copied from OUT to IN decodes to what was encoded. -/
def Obligations.ControlFramesRoundTrip : Prop :=
  ∀ s e d : State, exec .encCtrl s = .next e → e.status = 0 →
    d.inLen = e.outLen → (∀ i, i < e.outLen.toNat → d.inByte i = e.outByte i) →
    exec .decode d = .next
      { d with
        res := resultsOf 0 s.frameType.toNat s.item.toNat 0 4 s.inLen.toNat e.res.hdr.toNat e.outLen.toNat 0
        status := 0 } ∧
    ∀ i, i < s.inLen.toNat → d.inByte (4 + i) = s.inByte i

/-- 42_decode.md R176, the rows of ENC.DATA: the sub-header comes back as item code or sequence number, the rest of the
params as the body, and a DataItem0 frame with an unknown code fails. -/
def Obligations.DataFramesRoundTrip : Prop :=
  ∀ s e d : State, exec .encData s = .next e → e.status = 0 →
    d.inLen = e.outLen → (∀ i, i < e.outLen.toNat → d.inByte i = e.outByte i) →
    let t := s.frameType.toNat
    let n := s.inLen.toNat
    let sub := (inHalf s 0).toNat
    let esc := if e.outLen.toNat = 8194 then 1 else 0
    (∀ i, i < n → d.inByte (2 + i) = s.inByte i) ∧
    (t = 4 → sub ∈ itemNumbers → exec .decode d = .next
      { d with res := resultsOf 1 4 sub 0 4 (n - 2) e.res.hdr.toNat e.outLen.toNat esc, status := 0 }) ∧
    (t = 4 → sub ∉ itemNumbers → exec .decode d = .next (afterRaise 0x03 d)) ∧
    (t = 5 → exec .decode d = .next
      { d with res := resultsOf 2 5 0 sub 4 (n - 2) e.res.hdr.toNat e.outLen.toNat esc, status := 0 }) ∧
    (t = 6 ∨ t = 7 → exec .decode d = .next
      { d with res := resultsOf 3 t 0 0 2 n e.res.hdr.toNat e.outLen.toNat esc, status := 0 })

/-- 42_decode.md R170: DECODE is the function `decode` on IN[0..IN_LEN], which gives one result for every byte
sequence. -/
def Obligations.DecodeIsTheFunctionOnTheBuffer : Prop :=
  ∀ s : State,
    (∀ f, decodeBuffer (s.inBytes 0 s.inLen.toNat) = .ok f →
      exec .decode s = .next { s with res := decodedRes s.inLen.toNat f, status := 0 }) ∧
    (∀ e, decodeBuffer (s.inBytes 0 s.inLen.toNat) = .error e → exec .decode s = .next (afterRaise e.code s))

/-- 42_decode.md R177. -/
def Obligations.LengthMismatchIsAlwaysCaught : Prop :=
  ∀ (f : List Byte) (r : DecodedFrame), decodeBuffer f = .ok r →
    decodeBuffer f.dropLast = .error (if f.length - 1 < 2 then .empty else .lengthMismatch) ∧
    ∀ b, decodeBuffer (f ++ [b]) = .error .lengthMismatch

/-- 42_decode.md R178. -/
def Obligations.UnknownItemCodesAreAlwaysCaught : Prop :=
  ∀ (b0 b1 b2 b3 : Byte) (body : List Byte),
    typeNumber (le16 b0 b1) ≤ 4 → declaredLength (le16 b0 b1) = 4 + body.length →
    (le16 b2 b3).toNat ∉ itemNumbers →
    decodeBuffer (b0 :: b1 :: b2 :: b3 :: body) = .error .unknownItemCode

/-! ## The sample unpacker -/

/-- 43_samples.md R193: the value of a complete lane. -/
def Obligations.LaneIsTheLittleEndianSum : Prop :=
  ∀ (b : List Byte) (w i : Nat), 1 ≤ w → w ≤ 32 → i < b.length / ((w + 7) / 8) →
    (lane b w i).toNat = ∑ j ∈ Finset.range ((w + 7) / 8), (b.getD (i * ((w + 7) / 8) + j) 0).toNat * 256 ^ j

/-- 43_samples.md R195 and R194: the sequence, and the violation of R191. -/
def Obligations.SamplesAreTheCompleteLanes : Prop :=
  ∀ (w : Nat) (b : List Byte),
    (w < 1 ∨ 32 < w → samples w b = .error .invalidSampleWidth) ∧
    (1 ≤ w → w ≤ 32 → ∃ l, samples w b = .ok l ∧ l.length = b.length / ((w + 7) / 8) ∧
      ∀ i, i < l.length → l[i]? = some (lane b w i).toInt)

/-- 43_samples.md R196: no sign extension, so the ranges of the values. -/
def Obligations.SampleValueRanges : Prop :=
  ∀ (w : Nat) (b : List Byte) (l : List Int), samples w b = .ok l → ∀ x ∈ l,
    ((w + 7) / 8 = 1 → 0 ≤ x ∧ x ≤ 255) ∧
    ((w + 7) / 8 = 2 → 0 ≤ x ∧ x ≤ 65535) ∧
    ((w + 7) / 8 = 3 → 0 ≤ x ∧ x ≤ 16777215) ∧
    ((w + 7) / 8 = 4 → -2147483648 ≤ x ∧ x ≤ 2147483647)

/-- 43_samples.md R203: the width selects the lane size and nothing else. -/
def Obligations.EqualLaneSizesGiveEqualSamples : Prop :=
  ∀ (w v : Nat) (b : List Byte), 1 ≤ w → w ≤ 32 → 1 ≤ v → v ≤ 32 → (w + 7) / 8 = (v + 7) / 8 →
    samples w b = samples v b

/-- 43_samples.md R200: after a successful SMP.START, whatever happens between but another one, a host write to IN or
IN_LEN and the reset input, the SMP.NEXT commands deliver `samples(w, b)` in order and then report SAMPLE_END. Between
may stand register and buffer reads, operand-register writes and commands, and also header words and item codes as
instructions (the model's choice, logs 6 and 7). -/
def Obligations.CursorDeliversTheSequence : Prop :=
  ∀ (s t u : State) (between : List Event), s.inLen.toNat ≤ Config.inCap →
    exec .smpStart s = .next t → t.status = 0 →
    keepsInput between → Instr.smpStart ∉ between.filterMap Event.instr → happenAll t between = .next u →
    ∃ l, samples s.width.toNat (s.inBytes s.soff.toNat s.slen.toNat) = .ok l ∧
      ∃ v, exec .smpNext u = .next v ∧
        let k := (between.filterMap Event.instr).count .smpNext
        if h : k < l.length then v.status = 0 ∧ v.su.sample.toInt = l[k]
        else v.status = 8 ∧ v.su = u.su

/-- 43_samples.md R201: SMP.START again with the same WIDTH, SOFF and SLEN, after anything but a host write to IN or
IN_LEN and the reset input, finds the body as it was and delivers the same sequence: after any number of SMP.NEXT the
cursor, SU_SAMPLE in it, and STATUS are as after the first start. Between may stand header words and item codes as
instructions (the model's choice, logs 6 and 7). -/
def Obligations.SampleStartRestarts : Prop :=
  ∀ (s t u v : State) (between : List Event), s.inLen.toNat ≤ Config.inCap →
    exec .smpStart s = .next t → keepsInput between → happenAll t between = .next u →
    u.width = s.width → u.soff = s.soff → u.slen = s.slen →
    exec .smpStart u = .next v →
    v.su = t.su ∧ v.status = t.status ∧ (∀ i, i < s.inLen.toNat → v.inByte i = s.inByte i) ∧
      ∀ k, ∃ x y, nextSamples t k = .next x ∧ nextSamples v k = .next y ∧ y.su = x.su ∧ y.status = x.status

/-! ## The host port and the step -/

/-- The step runs the decoded command: a 32-bit write to CMD runs the command its value decodes to, on the state less
that access; with no access pending the state is held (60_exceptions.md R244). The list of pending accesses is the
model's choice, log 1. -/
def Obligations.StepRunsTheDecodedCommand : Prop :=
  (∀ (s : State) (v : Word) (rest : List HostAccess), s.host = .write 4 0x00000 v :: rest →
    step s = exec (decodeCommand v) { s with host := rest }) ∧
  (∀ s : State, s.host = [] → step s = .next s)

/-- The same in the bytes of the encoding: a command whose bytes decode to a well-formed i runs as i. -/
def Obligations.StepRunsEncodedCommands : Prop :=
  ∀ (s : State) (i : Instr) (rest : List HostAccess), i.domain = .command → i.wellFormed = true →
    s.host = .write 4 0x00000 (commandWord i) :: rest → step s = exec i { s with host := rest }

/-- The model's choice, log 9: a word placed by withFetchWord is the one the next step runs. -/
def Obligations.PlacedWordsRunNext : Prop :=
  (∀ (s : State) (v : Word), step (s.withFetchWord 32 v.toNat) = exec (decodeCommand v) s) ∧
  (∀ (s : State) (w : Half) (i : Instr), decodeTableWord 16 w.toNat = some i →
    step (s.withFetchWord 16 w.toNat) = exec i { s.withFetchWord 16 w.toNat with host := s.host })

/-- 10_state.md R24 (a): an RW register takes all 32 bits and reads them back; nothing else changes. -/
def Obligations.OperandRegistersStoreAllBits : Prop :=
  ∀ (s : State) (r : Reg) (v : Word) (rest : List HostAccess),
    r ∈ [Reg.frameType, .item, .tlen, .hdr, .width, .soff, .slen] →
    s.host = .write 4 (BitVec.ofNat 18 r.offset) v :: rest →
    ∃ t, step s = .next t ∧ t.readReg r = v ∧ (∀ q, q ≠ r → t.readReg q = s.readReg q) ∧ t.mem = s.mem ∧
      t.host = rest ∧ t.readData = s.readData ∧ t.draws = s.draws ∧ t.resets = s.resets

/-- 10_state.md R34: IN_LEN takes a value that fits IN and ignores one that does not; both disarm the cursor and leave
its BPS and WIDTH. -/
def Obligations.InLenWriteFitsOrIsIgnored : Prop :=
  ∀ (s : State) (v : Word) (rest : List HostAccess), s.host = .write 4 0x00024 v :: rest →
    ∃ t, step s = .next t ∧
      t = { s with host := rest, inLen := if v.toNat ≤ Config.inCap then v else s.inLen,
                   su := { s.su with state := t.su.state } } ∧
      t.su.armed = false ∧ t.su.state.toNat = s.su.state.toNat - s.su.state.toNat % 2

/-- 10_state.md R24 (b) and (e): a write to a read-only register or a reserved offset changes nothing. -/
def Obligations.ReadOnlyWritesAreIgnored : Prop :=
  ∀ (s : State) (off : Nat) (v : Word) (rest : List HostAccess),
    (off = 0x04 ∨ (0x28 ≤ off ∧ off ≤ 0xFC)) → off % 4 = 0 →
    s.host = .write 4 (BitVec.ofNat 18 off) v :: rest → step s = .next { s with host := rest }

/-- 10_state.md R23, R24 (d), (e), (f): a register read returns the register, 0 for CMD and the reserved offsets, the
constants for ID and INCAP, and changes nothing of the block. What it returns stands in the model's readData, log 2. -/
def Obligations.RegisterReadsHaveNoSideEffect : Prop :=
  ∀ (s : State) (off : Nat) (rest : List HostAccess), off < 0x100 → off % 4 = 0 →
    s.host = .read 4 (BitVec.ofNat 18 off) :: rest →
    ∃ d, step s = .next { s with host := rest, readData := d } ∧
      (off = 0x00 → d = 0) ∧ (0x6C ≤ off → d = 0) ∧ (off = 0x64 → d = 0x46435301) ∧
      (off = 0x68 → d.toNat = Config.inCap) ∧ (∀ r : Reg, r.offset = off → d = s.readReg r)

/-- 20_memory.md R63 and R75: a byte write to IN stores the byte and disarms the cursor; every other byte and register
is as before. That the byte is the low byte of the written data is the model's choice, log 20. -/
def Obligations.InByteWriteStoresAndDisarms : Prop :=
  ∀ (s : State) (i : Nat) (v : Word) (rest : List HostAccess), i < Config.inCap →
    s.host = .write 1 (BitVec.ofNat 18 (inBase + i)) v :: rest →
    ∃ t, step s = .next t ∧
      t = { s with host := rest, mem := t.mem, su := { s.su with state := t.su.state } } ∧
      t.inByte i = v.setWidth 8 ∧ sameBytesOutside (inBase + i) (inBase + i + 1) s t ∧
      t.su.armed = false ∧ t.su.state.toNat = s.su.state.toNat - s.su.state.toNat % 2

/-- 20_memory.md R76, for IN: a byte below IN_LEN reads as it stands; one at or beyond it is an unspecified byte, drawn
at this read (the free value of log 3). Nothing of the block changes. -/
def Obligations.InByteReads : Prop :=
  ∀ (s : State) (i : Nat) (rest : List HostAccess), i < Config.inCap →
    s.host = .read 1 (BitVec.ofNat 18 (inBase + i)) :: rest →
    (i < s.inLen.toNat → step s = .next { s with host := rest, readData := (s.inByte i).setWidth 32 }) ∧
    (s.inLen.toNat ≤ i → step s = .next
      { s with host := rest, readData := (Config.unspecifiedByte s.draws).setWidth 32, draws := s.draws + 1 })

/-- 20_memory.md R63 and R76, for OUT: reads as for IN, and a byte write is ignored. -/
def Obligations.OutByteAccesses : Prop :=
  ∀ (s : State) (i : Nat) (rest : List HostAccess), i < 8194 →
    (s.host = .read 1 (BitVec.ofNat 18 (outBase + i)) :: rest →
      (i < s.outLen.toNat → step s = .next { s with host := rest, readData := (s.outByte i).setWidth 32 }) ∧
      (s.outLen.toNat ≤ i → step s = .next
        { s with host := rest, readData := (Config.unspecifiedByte s.draws).setWidth 32, draws := s.draws + 1 })) ∧
    (∀ v, s.host = .write 1 (BitVec.ofNat 18 (outBase + i)) v :: rest → step s = .next { s with host := rest })

/-- 20_memory.md R65: an unmapped address reads 0 and ignores writes, whatever the width. The letter of R64 puts a
32-bit access at an address that is not a multiple of 4 outside the interface; that an unmapped one is R65's is the
model's deduction, log 11. An access that begins there and reaches into a buffer window is refused, the model's choice,
log 11, so it is left out here. -/
def Obligations.UnmappedAccesses : Prop :=
  ∀ (s : State) (a : Address) (width : Nat) (v : Word) (rest : List HostAccess),
    ((0x100 ≤ a.toNat ∧ a.toNat < 0x10000 ∧ a.toNat + width ≤ 0x10000) ∨
      (0x10000 + Config.inCap ≤ a.toNat ∧ a.toNat < 0x20000 ∧ a.toNat + width ≤ 0x20000) ∨ 0x22002 ≤ a.toNat) →
    (s.host = .read width a :: rest → step s = .next { s with host := rest, readData := 0 }) ∧
    (s.host = .write width a v :: rest → step s = .next { s with host := rest })

/-- 20_memory.md R64: an access of another shape to a window is refused, by name. -/
def Obligations.UnsupportedShapesAreRefused : Prop :=
  ∀ (s : State) (a : Address) (width : Nat) (v : Word) (rest : List HostAccess),
    ((a.toNat < 0x100 ∧ (width ≠ 4 ∨ a.toNat % 4 ≠ 0)) ∨
      (0x10000 ≤ a.toNat ∧ a.toNat < 0x10000 + Config.inCap ∧ width ≠ 1) ∨
      (0x20000 ≤ a.toNat ∧ a.toNat < 0x22002 ∧ width ≠ 1)) →
    s.host = .read width a :: rest ∨ s.host = .write width a v :: rest →
    step s = .refused (.unsupportedAccess width a)

/-- 70_reset_and_hazards.md R260: asserting reset puts every register in its reset value, and STATUS, ARMED, the
lengths and RES with them. That reset is an entry of the pending accesses is the model's choice, log 23. -/
def Obligations.ResetInputClearsEveryRegister : Prop :=
  ∀ (s : State) (rest : List HostAccess), s.host = .reset :: rest →
    ∃ t, step s = .next t ∧ (∀ r : Reg, r ≠ .id → r ≠ .inCap → t.readReg r = 0) ∧
      t.readReg .id = 0x46435301 ∧ (t.readReg .inCap).toNat = Config.inCap ∧ t.su.armed = false

/-- 10_state.md R52, its first sentence: the registers of the state after reset. -/
def Obligations.ResetValues : Prop :=
  (∀ r : Reg, r ≠ .id → r ≠ .inCap → State.reset.readReg r = 0) ∧ State.reset.readReg .id = 0x46435301 ∧
    (State.reset.readReg .inCap).toNat = Config.inCap

/-- 10_state.md R26: no host access that runs no command changes STATUS, but reset. -/
def Obligations.HostAccessesLeaveStatus : Prop :=
  ∀ (s t : State) (x : HostAccess) (rest : List HostAccess), s.host = x :: rest → commandOf x = none →
    x ≠ .reset → step s = .next t → t.status = s.status ∧ t.res = s.res ∧ t.outLen = s.outLen ∧
      (∀ i, t.outByte i = s.outByte i)

/-! ## Host assembly (30_encoding.md R116) -/

/-- 30_encoding.md R116, `load`: IN holds the bytes, IN_LEN their number, and the cursor is disarmed. -/
def Obligations.LoadFillsIn : Prop :=
  ∀ (s : State) (bs : List Byte), bs.length ≤ Config.inCap →
    ∃ t, runAccesses s (loadAccesses bs) = .next t ∧
      t.inBytes 0 bs.length = bs ∧ t.inLen.toNat = bs.length ∧ t.su.armed = false ∧
      sameBytesOutside inBase (inBase + bs.length) s t ∧ t.status = s.status ∧ t.res = s.res ∧ t.outLen = s.outLen

/-- 30_encoding.md R116, `loopback`: IN holds the frame in OUT, and every byte of OUT is as before. That it reads
OUT_LEN first, and that its writes carry what its reads return, taken from the state at its start, are the model's
choices, log 19. -/
def Obligations.LoopbackCopiesOutToIn : Prop :=
  ∀ s : State, LengthsGood s →
    ∃ t, runAccesses s (loopbackAccesses s) = .next t ∧
      t.inLen = s.outLen ∧ t.outLen = s.outLen ∧
      (∀ i, i < s.outLen.toNat → t.inByte i = s.outByte i) ∧
      (∀ i, t.outByte i = s.outByte i) ∧
      t.su.armed = false ∧ t.status = s.status ∧ t.res = s.res

/-! ## Invariants of every step -/

/-- The memory stays within the buffers (20_memory.md R61), and canonical: addresses strictly rising, the model's own
form of memory (DESIGN CHOICE, log 13). -/
def Obligations.StepKeepsMemoryGood : Prop :=
  ∀ s t : State, MemoryGood s → step s = .next t → MemoryGood t

/-- IN_LEN stays within IN, OUT_LEN stays 0 or 2..8194, every byte below OUT_LEN stays written (10_state.md R34,
R35). -/
def Obligations.StepKeepsLengthsGood : Prop :=
  ∀ s t : State, LengthsGood s → step s = .next t → LengthsGood t

/-- The result registers stay within the fields and values of 10_state.md R23, and STATUS one of the codes of
60_exceptions.md R230. -/
def Obligations.StepKeepsResultsAndStatusGood : Prop :=
  ∀ s t : State, ResultsGood s.res → StatusGood s → step s = .next t → ResultsGood t.res ∧ StatusGood t

/-- The cursor stays consistent (10_state.md R40 to R42), and while it is armed every lane lies within IN_LEN
(43_samples.md R202). -/
def Obligations.StepKeepsCursorGood : Prop :=
  ∀ s t : State, LengthsGood s → CursorGood s → step s = .next t → CursorGood t

/-- The invariants hold at reset. -/
def Obligations.ResetIsGood : Prop := State.Good State.reset

/-- 43_samples.md R202: SMP.NEXT reads at most 4 bytes, those of its lane, all below IN_LEN: over any memory that agrees
there it ends in the same state but for that memory. -/
def Obligations.SampleNextReadsValidBytesOnly : Prop :=
  ∀ (s : State) (m : Memory), State.Good s → s.su.armed = true → s.su.pos ≠ s.su.count →
    (∀ j, j < s.su.bps → ({ s with mem := m } : State).inByte (cursorBase s + j) = s.inByte (cursorBase s + j)) →
    s.su.bps ≤ 4 ∧ cursorBase s + s.su.bps ≤ s.inLen.toNat ∧
    ∃ t, exec .smpNext s = .next t ∧ t.status = 0 ∧ t.mem = s.mem ∧
      exec .smpNext { s with mem := m } = .next { t with mem := m }
end

