-- ==== Sys2Proof/Laws/Encoding.lean ====
section
/-! SUPPORT. The fields of the encodings as numbers: what the shifts, masks and byte pairs of 30_encoding.md are worth. -/

namespace Sys2Proof.Laws

open Sys2Proof.Machine

theorem headerType_toNat (w : Half) : (headerType w).toNat = w.toNat / 8192 := by
  have := w.isLt
  simp [headerType, BitVec.toNat_setWidth, BitVec.toNat_ushiftRight, Nat.shiftRight_eq_div_pow]
  omega

theorem headerLen_toNat (w : Half) : (headerLen w).toNat = w.toNat % 8192 := by
  have h : w.toNat &&& 8191 = w.toNat % 8192 := Nat.and_two_pow_sub_one_eq_mod w.toNat 13
  have h2 : (w &&& 0x1FFF#16).toNat = w.toNat % 8192 := by rw [BitVec.toNat_and]; exact h
  rw [headerLen, BitVec.toNat_setWidth, h2, Nat.mod_mod]

theorem headerWord_toNat (t : FrameType) (len : LengthField) :
    (headerWord t len).toNat = len.toNat + t.toNat * 8192 := by
  have ht := t.isLt
  have hl := len.isLt
  have h := Nat.two_pow_add_eq_or_of_lt (i := 13) hl t.toNat
  simp only [headerWord, BitVec.toNat_or, BitVec.toNat_setWidth, BitVec.toNat_shiftLeft, Nat.shiftLeft_eq]
  rw [Nat.mod_eq_of_lt (by omega), Nat.mod_eq_of_lt (a := t.toNat) (by omega), Nat.mod_eq_of_lt (by omega), Nat.or_comm,
    Nat.mul_comm, ← h]
  omega

/-- The fields of a packed word are the ones packed. -/
@[simp] theorem headerType_headerWord (t : FrameType) (len : LengthField) : headerType (headerWord t len) = t := by
  apply BitVec.eq_of_toNat_eq
  have := len.isLt
  rw [headerType_toNat, headerWord_toNat]
  omega

@[simp] theorem headerLen_headerWord (t : FrameType) (len : LengthField) : headerLen (headerWord t len) = len := by
  apply BitVec.eq_of_toNat_eq
  have := len.isLt
  rw [headerLen_toNat, headerWord_toNat]
  omega

/-- A word is packed from its own fields. -/
theorem headerWord_fields (w : Half) : headerWord (headerType w) (headerLen w) = w := by
  apply BitVec.eq_of_toNat_eq
  rw [headerWord_toNat, headerType_toNat, headerLen_toNat]
  omega

theorem le16_toNat (b0 b1 : Byte) : (le16 b0 b1).toNat = b0.toNat + 256 * b1.toNat := by
  have h0 := b0.isLt
  have h1 := b1.isLt
  have h := Nat.two_pow_add_eq_or_of_lt (i := 8) h0 b1.toNat
  simp only [le16, BitVec.toNat_or, BitVec.toNat_setWidth, BitVec.toNat_shiftLeft, Nat.shiftLeft_eq]
  rw [Nat.mod_eq_of_lt (by omega), Nat.mod_eq_of_lt (a := b1.toNat) (by omega), Nat.mod_eq_of_lt (by omega), Nat.or_comm,
    Nat.mul_comm, ← h]
  omega

theorem bytesLe16_eq (v : Half) : bytesLe16 v = [BitVec.ofNat 8 v.toNat, BitVec.ofNat 8 (v.toNat / 256)] := by
  simp [bytesLe16, BitVec.extractLsb', Nat.shiftRight_eq_div_pow]

@[simp] theorem bytesLe16_length (v : Half) : (bytesLe16 v).length = 2 := rfl

theorem le16_bytesLe16 (v : Half) :
    le16 (v.extractLsb' 0 8) (v.extractLsb' 8 8) = v := by
  apply BitVec.eq_of_toNat_eq
  have := v.isLt
  rw [le16_toNat]
  simp [BitVec.extractLsb'_toNat, Nat.shiftRight_eq_div_pow]
  omega

/-- A command word comes back from its bytes, and the bytes from the word. -/
theorem le32_bytesLe32 (v : Word) :
    le32 (v.extractLsb' 0 8) (v.extractLsb' 8 8) (v.extractLsb' 16 8) (v.extractLsb' 24 8) = v := by
  apply BitVec.eq_of_getLsbD_eq
  intro i hi
  simp only [le32, BitVec.getLsbD_or, BitVec.getLsbD_setWidth, BitVec.getLsbD_shiftLeft, BitVec.getLsbD_extractLsb']
  interval_cases i <;> simp

theorem bytesLe32_le32 (b0 b1 b2 b3 : Byte) : bytesLe32 (le32 b0 b1 b2 b3) = [b0, b1, b2, b3] := by
  simp only [bytesLe32, List.cons.injEq, and_true]
  refine ⟨?_, ?_, ?_, ?_⟩ <;>
  · apply BitVec.eq_of_getLsbD_eq
    intro i hi
    simp only [le32, BitVec.getLsbD_or, BitVec.getLsbD_setWidth, BitVec.getLsbD_shiftLeft, BitVec.getLsbD_extractLsb', hi]
    interval_cases i <;> simp

/-- The bytes of the half word that two bytes make. -/
theorem bytesLe16_le16 (b0 b1 : Byte) : bytesLe16 (le16 b0 b1) = [b0, b1] := by
  have h0 := b0.isLt
  have h1 := b1.isLt
  rw [bytesLe16_eq, le16_toNat]
  congr 1
  · apply BitVec.eq_of_toNat_eq; rw [BitVec.toNat_ofNat]; omega
  · congr 1; apply BitVec.eq_of_toNat_eq; rw [BitVec.toNat_ofNat]; omega

theorem commandZeroField_toNat (v : Word) : (commandZeroField v).toNat = v.toNat / 256 := by
  have := v.isLt
  simp [commandZeroField, BitVec.extractLsb'_toNat, Nat.shiftRight_eq_div_pow]
  omega

theorem commandOpcode_toNat (v : Word) : (commandOpcode v).toNat = v.toNat % 256 := by
  simp [commandOpcode, BitVec.extractLsb'_toNat]

/-- The closed set, by number. -/
theorem knownItem_iff (c : Word) :
    knownItem c = true ↔ c.toNat ∈ [0x0000, 0x0018, 0x0020, 0x0044, 0x008A, 0x00B8] := by
  simp [knownItem, itemCodes, ← BitVec.toNat_inj]

/-- `unpack_header`, in numbers. -/
theorem unpackHeader_decl (w : Half) :
    (unpackHeader w).decl = if 4 ≤ w.toNat / 8192 ∧ w.toNat % 8192 = 0 then 8194 else w.toNat % 8192 := by
  simp only [unpackHeader, isDataType, headerType_toNat, headerLen_toNat, Config.maxDataLen, Bool.and_eq_true,
    decide_eq_true_eq, beq_iff_eq, ← BitVec.toNat_inj]
  rfl

theorem unpackHeader_esc (w : Half) :
    (unpackHeader w).esc = decide (4 ≤ w.toNat / 8192 ∧ w.toNat % 8192 = 0) := by
  rw [Bool.eq_iff_iff]
  simp [unpackHeader, isDataType, headerType_toNat, headerLen_toNat, ← BitVec.toNat_inj]

@[simp] theorem unpackHeader_frameType (w : Half) : (unpackHeader w).frameType = headerType w := rfl

@[simp] theorem unpackHeader_raw (w : Half) : (unpackHeader w).raw = headerLen w := rfl

/-- `pack_header` of a length the field holds. -/
theorem packHeader_field (t : FrameType) (l : Nat) (h : l ≤ 8191) :
    packHeader t l = .ok ⟨headerWord t (BitVec.ofNat 13 l), false⟩ := by
  simp only [packHeader, Config.maxDataLen, Config.maxNonDataLen]
  rw [if_neg (by omega), if_neg (by omega), if_neg (by omega)]
  rfl

/-- `pack_header` of the escaped length. -/
theorem packHeader_escape (t : FrameType) (h : 4 ≤ t.toNat) :
    packHeader t (8194 : Nat) = .ok ⟨headerWord t 0, true⟩ := by
  simp [packHeader, Config.maxDataLen, isDataType, h]

/-- `pack_header` of any other length above the field raises ENCODE_TOO_LONG. -/
theorem packHeader_tooLong (t : FrameType) (l : Nat) (h : 8191 < l) (he : ¬(4 ≤ t.toNat ∧ l = 8194)) :
    packHeader t l = .error .encodeTooLong := by
  simp only [packHeader, Config.maxDataLen, Config.maxNonDataLen, isDataType, decide_eq_true_eq]
  rw [if_neg (by omega), if_neg (by omega), if_pos (by omega)]

/-- `pack_header` of a negative length raises INVALID_ARGUMENT. -/
theorem packHeader_negative (t : FrameType) (l : Int) (h : l < 0) : packHeader t l = .error .invalidArgument := by
  simp [packHeader, h]

end Sys2Proof.Laws
end

