-- ==== Sys2Proof/Laws/Memory.lean ====
section
/-! SUPPORT. The memory operations: a read after a write, everything else left alone, and the canonical form kept. -/

namespace Sys2Proof.Laws

open Sys2Proof.Machine

theorem get_set_same (m : Memory) (a : Nat) (b : Byte) : (m.set a b).get a = some b := by
  induction m with
  | nil => simp [Memory.set, Memory.get]
  | cons c rest ih =>
    obtain ⟨x, d⟩ := c
    simp only [Memory.set]
    split
    · simp [Memory.get]
    · split
      · simp [Memory.get]
      · have : x ≠ a := by omega
        simp [Memory.get, this, ih]

theorem get_set_other (m : Memory) (a a' : Nat) (b : Byte) (h : a' ≠ a) : (m.set a b).get a' = m.get a' := by
  induction m with
  | nil => simp [Memory.set, Memory.get, Ne.symm h]
  | cons c rest ih =>
    obtain ⟨x, d⟩ := c
    simp only [Memory.set]
    split
    · simp [Memory.get, Ne.symm h]
    · split
      · subst_vars
        simp [Memory.get, Ne.symm h]
      · simp [Memory.get, ih]

/-- Every entry after a write is the written one or an old one. -/
theorem mem_set (m : Memory) (a : Nat) (b : Byte) (c : Host.Cell) (h : c ∈ m.set a b) : c = (a, b) ∨ c ∈ m := by
  induction m with
  | nil => simpa [Memory.set] using h
  | cons d rest ih =>
    obtain ⟨x, e⟩ := d
    simp only [Memory.set] at h
    split at h
    · simpa using h
    · split at h
      · rcases List.mem_cons.1 h with h | h
        · exact .inl h
        · exact .inr (List.mem_cons_of_mem _ h)
      · rcases List.mem_cons.1 h with h | h
        · exact .inr (h ▸ List.mem_cons_self)
        · rcases ih h with h | h
          · exact .inl h
          · exact .inr (List.mem_cons_of_mem _ h)

/-- A write keeps the canonical form. -/
theorem set_wf (m : Memory) (a : Nat) (b : Byte) (h : m.wf) : (m.set a b).wf := by
  induction m with
  | nil => simp [Memory.set]
  | cons c rest ih =>
    obtain ⟨x, d⟩ := c
    have hr : Memory.wf rest := (List.pairwise_cons.1 h).2
    have hx := (List.pairwise_cons.1 h).1
    simp only [Memory.set]
    split
    · refine List.pairwise_cons.2 ⟨fun e he => ?_, h⟩
      rcases List.mem_cons.1 he with he | he
      · subst he; assumption
      · have := hx e he; simp only at this ⊢; omega
    · split
      · subst_vars
        exact List.pairwise_cons.2 ⟨hx, hr⟩
      · refine List.pairwise_cons.2 ⟨fun e he => ?_, ih hr⟩
        rcases mem_set _ _ _ _ he with he | he
        · subst he; simp only; omega
        · exact hx e he

/-- A write of several bytes keeps the canonical form. -/
theorem setBytes_wf (m : Memory) (a : Nat) (bs : List Byte) (h : m.wf) : (m.setBytes a bs).wf := by
  induction bs generalizing m a with
  | nil => exact h
  | cons b bs ih => exact ih _ _ (set_wf m a b h)

theorem writeOut_wf (s : State) (frame : List Byte) (h : s.mem.wf) : (s.writeOut frame).mem.wf :=
  setBytes_wf _ _ _ h

theorem reset_wf : State.reset.mem.wf := List.Pairwise.nil

/-- Every address listed after a write of several bytes is one of theirs or an old one. -/
theorem mem_setBytes (m : Memory) (a : Nat) (bs : List Byte) (c : Host.Cell) (h : c ∈ m.setBytes a bs) :
    (a ≤ c.1 ∧ c.1 < a + bs.length) ∨ c ∈ m := by
  induction bs generalizing m a with
  | nil => exact .inr h
  | cons b bs ih =>
    rcases ih _ _ h with ⟨h1, h2⟩ | h
    · exact .inl ⟨by omega, by simp only [List.length_cons]; omega⟩
    · rcases mem_set _ _ _ _ h with h | h
      · subst h; exact .inl ⟨Nat.le_refl _, by simp⟩
      · exact .inr h

theorem get_setBytes_outside (m : Memory) (a : Nat) (bs : List Byte) (x : Nat) (h : x < a ∨ a + bs.length ≤ x) :
    (m.setBytes a bs).get x = m.get x := by
  induction bs generalizing m a with
  | nil => rfl
  | cons b bs ih =>
    simp only [List.length_cons] at h
    rw [Memory.setBytes, ih _ _ (by omega), get_set_other _ _ _ _ (by omega)]

theorem get_setBytes_inside (m : Memory) (a : Nat) (bs : List Byte) (i : Nat) (h : i < bs.length) :
    (m.setBytes a bs).get (a + i) = some bs[i] := by
  induction bs generalizing m a i with
  | nil => simp at h
  | cons b bs ih =>
    cases i with
    | zero => rw [Memory.setBytes, get_setBytes_outside _ _ _ _ (by omega)]; simp [get_set_same]
    | succ i =>
      have := ih (m.set a b) (a + 1) i (by simpa using h)
      rw [Memory.setBytes, show a + (i + 1) = a + 1 + i by omega, this]
      simp

theorem get_eq_none_of_lt (m : Memory) (a : Nat) (h : ∀ c ∈ m, a < c.1) : m.get a = none := by
  induction m with
  | nil => rfl
  | cons c rest ih =>
    have := h c List.mem_cons_self
    simp only [Memory.get, show ¬ c.1 = a by omega, if_false]
    exact ih fun d hd => h d (List.mem_cons_of_mem _ hd)

/-- Canonical memories with the same bytes are the same list. -/
theorem memory_ext (m n : Memory) (hm : m.wf) (hn : n.wf) (h : ∀ a, m.get a = n.get a) : m = n := by
  induction m generalizing n with
  | nil =>
    cases n with
    | nil => rfl
    | cons d n => have := h d.1; simp [Memory.get] at this
  | cons c m ih =>
    cases n with
    | nil => have := h c.1; simp [Memory.get] at this
    | cons d n =>
      obtain ⟨hc, hm'⟩ := List.pairwise_cons.1 hm
      obtain ⟨hd, hn'⟩ := List.pairwise_cons.1 hn
      obtain ⟨x, b⟩ := c
      obtain ⟨y, e⟩ := d
      simp only at hc hd
      have hxy : x = y := by
        rcases Nat.lt_trichotomy x y with hlt | heq | hgt
        · have h1 := h x
          rw [get_eq_none_of_lt ((y, e) :: n) x] at h1
          · simp [Memory.get] at h1
          · intro c hc'
            rcases List.mem_cons.1 hc' with h2 | h2
            · subst h2; exact hlt
            · have := hd c h2; omega
        · exact heq
        · have h1 := h y
          rw [get_eq_none_of_lt ((x, b) :: m) y] at h1
          · simp [Memory.get] at h1
          · intro c hc'
            rcases List.mem_cons.1 hc' with h2 | h2
            · subst h2; exact hgt
            · have := hc c h2; omega
      subst hxy
      have hbe : b = e := by simpa [Memory.get] using h x
      subst hbe
      refine congrArg _ (ih n hm' hn' fun a => ?_)
      by_cases ha : x = a
      · subst ha
        rw [get_eq_none_of_lt m x hc, get_eq_none_of_lt n x hd]
      · simpa [Memory.get, ha] using h a

/-- Writing the same bytes twice is writing them once. -/
theorem setBytes_setBytes (m : Memory) (a : Nat) (bs : List Byte) (h : m.wf) :
    (m.setBytes a bs).setBytes a bs = m.setBytes a bs := by
  have h1 := setBytes_wf m a bs h
  refine memory_ext _ _ (setBytes_wf _ a bs h1) h1 fun x => ?_
  by_cases hx : a ≤ x ∧ x < a + bs.length
  · obtain ⟨i, rfl⟩ := Nat.exists_eq_add_of_le hx.1
    rw [get_setBytes_inside _ _ _ _ (by omega), get_setBytes_inside _ _ _ _ (by omega)]
  · rw [get_setBytes_outside _ _ _ _ (by omega)]

/-! ## Bytes of the state -/

theorem byteAt_of_mem_eq (s t : State) (hm : t.mem = s.mem) (hr : t.resets = s.resets) (a : Nat) :
    t.byteAt a = s.byteAt a := by simp [State.byteAt, hm, hr]

@[simp] theorem inBytes_length (s : State) (a n : Nat) : (s.inBytes a n).length = n := by simp [State.inBytes]

@[simp] theorem outBytes_length (s : State) (a n : Nat) : (s.outBytes a n).length = n := by simp [State.outBytes]

theorem inBytes_getElem (s : State) (a n i : Nat) (h : i < (s.inBytes a n).length) :
    (s.inBytes a n)[i] = s.inByte (a + i) := by simp [State.inBytes]

/-- Two states that agree on a window of IN read the same bytes there. -/
theorem inBytes_congr (s t : State) (a n : Nat) (h : ∀ j, j < n → t.inByte (a + j) = s.inByte (a + j)) :
    t.inBytes a n = s.inBytes a n := by
  simp only [State.inBytes]
  exact List.map_congr_left fun j hj => h j (List.mem_range.1 hj)

/-- What a frame written to OUT leaves at every address. -/
theorem writeOut_byteAt_outside (s : State) (f : List Byte) (a : Nat) (h : a < outBase ∨ outBase + f.length ≤ a) :
    (s.writeOut f).byteAt a = s.byteAt a := by
  simp [State.byteAt, State.writeOut, get_setBytes_outside _ _ _ _ h]

theorem writeOut_outByte (s : State) (f : List Byte) (i : Nat) (h : i < f.length) :
    (s.writeOut f).outByte i = f[i] := by
  simp [State.outByte, State.byteAt, State.writeOut, get_setBytes_inside _ _ _ _ h]

end Sys2Proof.Laws
end

