-- ==== Sys2Proof/Laws/State.lean ====
section
/-! SUPPORT. One lemma per field per update of the state, so that no proof unfolds a record update. -/

namespace Sys2Proof.Laws

open Sys2Proof.Machine

/-! ## Completing and raising: STATUS alone -/

@[simp] theorem complete_status (s : State) (c : Status) : (s.complete c).status = c.code := rfl
@[simp] theorem complete_frameType (s : State) (c : Status) : (s.complete c).frameType = s.frameType := rfl
@[simp] theorem complete_item (s : State) (c : Status) : (s.complete c).item = s.item := rfl
@[simp] theorem complete_tlen (s : State) (c : Status) : (s.complete c).tlen = s.tlen := rfl
@[simp] theorem complete_hdr (s : State) (c : Status) : (s.complete c).hdr = s.hdr := rfl
@[simp] theorem complete_width (s : State) (c : Status) : (s.complete c).width = s.width := rfl
@[simp] theorem complete_soff (s : State) (c : Status) : (s.complete c).soff = s.soff := rfl
@[simp] theorem complete_slen (s : State) (c : Status) : (s.complete c).slen = s.slen := rfl
@[simp] theorem complete_inLen (s : State) (c : Status) : (s.complete c).inLen = s.inLen := rfl
@[simp] theorem complete_outLen (s : State) (c : Status) : (s.complete c).outLen = s.outLen := rfl
@[simp] theorem complete_res (s : State) (c : Status) : (s.complete c).res = s.res := rfl
@[simp] theorem complete_su (s : State) (c : Status) : (s.complete c).su = s.su := rfl
@[simp] theorem complete_mem (s : State) (c : Status) : (s.complete c).mem = s.mem := rfl
@[simp] theorem complete_host (s : State) (c : Status) : (s.complete c).host = s.host := rfl
@[simp] theorem complete_readData (s : State) (c : Status) : (s.complete c).readData = s.readData := rfl
@[simp] theorem complete_draws (s : State) (c : Status) : (s.complete c).draws = s.draws := rfl
@[simp] theorem complete_resets (s : State) (c : Status) : (s.complete c).resets = s.resets := rfl
@[simp] theorem raise_eq_complete (s : State) (c : Status) : s.raise c = s.complete c := rfl

/-! ## Clearing a group -/

@[simp] theorem clearRes_res (s : State) : s.clearRes.res = ResultGroup.zero := rfl
@[simp] theorem clearRes_status (s : State) : s.clearRes.status = s.status := rfl
@[simp] theorem clearRes_inLen (s : State) : s.clearRes.inLen = s.inLen := rfl
@[simp] theorem clearRes_outLen (s : State) : s.clearRes.outLen = s.outLen := rfl
@[simp] theorem clearRes_su (s : State) : s.clearRes.su = s.su := rfl
@[simp] theorem clearRes_mem (s : State) : s.clearRes.mem = s.mem := rfl
@[simp] theorem clearRes_resets (s : State) : s.clearRes.resets = s.resets := rfl
@[simp] theorem clearOut_outLen (s : State) : s.clearOut.outLen = 0 := rfl
@[simp] theorem clearOut_status (s : State) : s.clearOut.status = s.status := rfl
@[simp] theorem clearOut_inLen (s : State) : s.clearOut.inLen = s.inLen := rfl
@[simp] theorem clearOut_res (s : State) : s.clearOut.res = s.res := rfl
@[simp] theorem clearOut_su (s : State) : s.clearOut.su = s.su := rfl
@[simp] theorem clearOut_mem (s : State) : s.clearOut.mem = s.mem := rfl
@[simp] theorem clearOut_resets (s : State) : s.clearOut.resets = s.resets := rfl
@[simp] theorem clearCursor_su (s : State) : s.clearCursor.su = Cursor.zero := rfl
@[simp] theorem clearCursor_status (s : State) : s.clearCursor.status = s.status := rfl
@[simp] theorem clearCursor_inLen (s : State) : s.clearCursor.inLen = s.inLen := rfl
@[simp] theorem clearCursor_outLen (s : State) : s.clearCursor.outLen = s.outLen := rfl
@[simp] theorem clearCursor_res (s : State) : s.clearCursor.res = s.res := rfl
@[simp] theorem clearCursor_mem (s : State) : s.clearCursor.mem = s.mem := rfl
@[simp] theorem clearCursor_resets (s : State) : s.clearCursor.resets = s.resets := rfl

/-! ## Disarming -/

@[simp] theorem disarm_su (s : State) : s.disarm.su = s.su.disarm := rfl
@[simp] theorem disarm_status (s : State) : s.disarm.status = s.status := rfl
@[simp] theorem disarm_inLen (s : State) : s.disarm.inLen = s.inLen := rfl
@[simp] theorem disarm_outLen (s : State) : s.disarm.outLen = s.outLen := rfl
@[simp] theorem disarm_res (s : State) : s.disarm.res = s.res := rfl
@[simp] theorem disarm_mem (s : State) : s.disarm.mem = s.mem := rfl
@[simp] theorem disarm_resets (s : State) : s.disarm.resets = s.resets := rfl
@[simp] theorem cursor_disarm_off (c : Cursor) : c.disarm.off = c.off := rfl
@[simp] theorem cursor_disarm_count (c : Cursor) : c.disarm.count = c.count := rfl
@[simp] theorem cursor_disarm_pos (c : Cursor) : c.disarm.pos = c.pos := rfl
@[simp] theorem cursor_disarm_sample (c : Cursor) : c.disarm.sample = c.sample := rfl

/-! ## Writing a frame to OUT -/

@[simp] theorem writeOut_mem (s : State) (f : List Byte) : (s.writeOut f).mem = s.mem.setBytes outBase f := rfl
@[simp] theorem writeOut_outLen (s : State) (f : List Byte) : (s.writeOut f).outLen = BitVec.ofNat 32 f.length := rfl
@[simp] theorem writeOut_status (s : State) (f : List Byte) : (s.writeOut f).status = s.status := rfl
@[simp] theorem writeOut_inLen (s : State) (f : List Byte) : (s.writeOut f).inLen = s.inLen := rfl
@[simp] theorem writeOut_res (s : State) (f : List Byte) : (s.writeOut f).res = s.res := rfl
@[simp] theorem writeOut_su (s : State) (f : List Byte) : (s.writeOut f).su = s.su := rfl
@[simp] theorem writeOut_resets (s : State) (f : List Byte) : (s.writeOut f).resets = s.resets := rfl

/-! ## Returning data to the host -/

@[simp] theorem returnData_readData (s : State) (v : Word) : (s.returnData v).readData = v := rfl
@[simp] theorem returnData_status (s : State) (v : Word) : (s.returnData v).status = s.status := rfl
@[simp] theorem returnData_inLen (s : State) (v : Word) : (s.returnData v).inLen = s.inLen := rfl
@[simp] theorem returnData_outLen (s : State) (v : Word) : (s.returnData v).outLen = s.outLen := rfl
@[simp] theorem returnData_res (s : State) (v : Word) : (s.returnData v).res = s.res := rfl
@[simp] theorem returnData_su (s : State) (v : Word) : (s.returnData v).su = s.su := rfl
@[simp] theorem returnData_mem (s : State) (v : Word) : (s.returnData v).mem = s.mem := rfl
@[simp] theorem returnData_draws (s : State) (v : Word) : (s.returnData v).draws = s.draws := rfl
@[simp] theorem returnData_resets (s : State) (v : Word) : (s.returnData v).resets = s.resets := rfl

/-! ## Reset -/

@[simp] theorem resetBlock_status (s : State) : (resetBlock s).status = 0 := rfl
@[simp] theorem resetBlock_inLen (s : State) : (resetBlock s).inLen = 0 := rfl
@[simp] theorem resetBlock_outLen (s : State) : (resetBlock s).outLen = 0 := rfl
@[simp] theorem resetBlock_res (s : State) : (resetBlock s).res = ResultGroup.zero := rfl
@[simp] theorem resetBlock_su (s : State) : (resetBlock s).su = Cursor.zero := rfl
@[simp] theorem resetBlock_mem (s : State) : (resetBlock s).mem = [] := rfl
@[simp] theorem resetBlock_host (s : State) : (resetBlock s).host = s.host := rfl
@[simp] theorem resetBlock_resets (s : State) : (resetBlock s).resets = s.resets + 1 := rfl

end Sys2Proof.Laws
end

