-- ==== Sys2Proof/Laws/Ops.lean ====
section
/-! SUPPORT. For each shared operation, what it can do, said once: the encoders' and the decoder's functions, the
register window, the host port and the step. -/

namespace Sys2Proof.Laws

open Sys2Proof.Machine

/-! ## The decoder's function -/

theorem frameKind_code (t : FrameType) : (frameKind t).code = BitVec.ofNat 32 (kindNumber t.toNat) := by
  revert t; decide

theorem flagWord_eq (b : Bool) : flagWord b = if b then 1 else 0 := by cases b <;> rfl

theorem declaredLength_eq (w : Half) : (unpackHeader w).decl = declaredLength w := by
  rw [unpackHeader_decl]; rfl

theorem escapeNumber_eq (w : Half) : flagWord (unpackHeader w).esc = BitVec.ofNat 32 (escapeNumber w) := by
  rw [flagWord_eq, unpackHeader_esc, escapeNumber, typeNumber]
  by_cases h : 4 ≤ w.toNat / 8192 ∧ w.toNat % 8192 = 0 <;> simp [h]

theorem decodeFrame_empty (n : Nat) (w sub : Half) (h : n < 2) : decodeFrame n w sub = .error .empty := by
  simp [decodeFrame, h]

theorem decodeFrame_mismatch (n : Nat) (w sub : Half) (h : 2 ≤ n) (hd : n ≠ declaredLength w) :
    decodeFrame n w sub = .error .lengthMismatch := by
  simp [decodeFrame, declaredLength_eq, hd, show ¬ n < 2 by omega]

theorem decodeFrame_truncated (n : Nat) (w sub : Half) (h : 2 ≤ n) (hd : n = declaredLength w)
    (ht : typeNumber w ≤ 5) (hn : n < 4) : decodeFrame n w sub = .error .truncated := by
  simp only [typeNumber] at ht
  simp only [decodeFrame, declaredLength_eq, unpackHeader_frameType, headerType_toNat, ← hd, hn, if_true, ne_eq,
    not_true, if_false, show ¬ n < 2 by omega]
  split
  · rfl
  · simp [show w.toNat / 8192 = 5 by omega]

theorem decodeFrame_unknown (n : Nat) (w sub : Half) (h : 4 ≤ n) (hd : n = declaredLength w)
    (ht : typeNumber w ≤ 4) (hc : sub.toNat ∉ itemNumbers) : decodeFrame n w sub = .error .unknownItemCode := by
  have hk : knownItem (sub.setWidth 32) = false := by
    rw [Bool.eq_false_iff]
    intro hk
    exact hc (by simpa [itemNumbers, Nat.mod_eq_of_lt (show sub.toNat < 4294967296 by omega)] using
      (knownItem_iff _).1 hk)
  simp only [typeNumber] at ht
  simp [decodeFrame, declaredLength_eq, headerType_toNat, ← hd, ht, hk, show ¬ n < 2 by omega, show ¬ n < 4 by omega]

theorem decodeFrame_item (n : Nat) (w sub : Half) (h : 4 ≤ n) (hd : n = declaredLength w)
    (ht : typeNumber w ≤ 4) (hc : sub.toNat ∈ itemNumbers) :
    decodeFrame n w sub = .ok
      { kind := frameKind (headerType w), frameType := headerType w, item := sub, seq := 0, off := 4, hdr := w,
        decl := declaredLength w, esc := (unpackHeader w).esc } := by
  have hk : knownItem (sub.setWidth 32) = true := by
    rw [knownItem_iff]
    simpa [itemNumbers, Nat.mod_eq_of_lt (show sub.toNat < 4294967296 by omega)] using hc
  simp only [typeNumber] at ht
  simp [decodeFrame, declaredLength_eq, headerType_toNat, ← hd, ht, hk, show ¬ n < 2 by omega, show ¬ n < 4 by omega]

theorem decodeFrame_seq (n : Nat) (w sub : Half) (h : 4 ≤ n) (hd : n = declaredLength w) (ht : typeNumber w = 5) :
    decodeFrame n w sub = .ok
      { kind := .dataWithSeq, frameType := headerType w, item := 0, seq := sub, off := 4, hdr := w,
        decl := declaredLength w, esc := (unpackHeader w).esc } := by
  simp only [typeNumber] at ht
  simp [decodeFrame, declaredLength_eq, headerType_toNat, ← hd, ht, show ¬ n < 2 by omega, show ¬ n < 4 by omega]

theorem decodeFrame_bare (n : Nat) (w sub : Half) (h : 2 ≤ n) (hd : n = declaredLength w) (ht : 6 ≤ typeNumber w) :
    decodeFrame n w sub = .ok
      { kind := .dataBare, frameType := headerType w, item := 0, seq := 0, off := 2, hdr := w,
        decl := declaredLength w, esc := (unpackHeader w).esc } := by
  simp only [typeNumber] at ht
  simp [decodeFrame, declaredLength_eq, headerType_toNat, ← hd, show ¬ n < 2 by omega, show ¬ w.toNat / 8192 ≤ 4 by omega,
    show ¬ w.toNat / 8192 = 5 by omega]

/-- A failing decode ends in RES 0 and the code; a frame ends in its results and OK. -/
theorem finishDecode_error (e : Status) (s : State) : finishDecode (.error e) s = afterRaise e.code s := rfl

theorem finishDecode_ok (f : DecodedFrame) (s : State) :
    finishDecode (.ok f) s = { s with res := decodedRes s.inLen.toNat f, status := 0 } := rfl

/-- The spec's numbers of a header word put together from a type and a length field. -/
theorem headerWord_numbers (t : FrameType) (len : LengthField) :
    (headerWord t len).toNat = len.toNat + t.toNat * 8192 ∧ typeNumber (headerWord t len) = t.toNat ∧
      declaredLength (headerWord t len) = (if 4 ≤ t.toNat ∧ len.toNat = 0 then 8194 else len.toNat) ∧
      escapeNumber (headerWord t len) = (if 4 ≤ t.toNat ∧ len.toNat = 0 then 1 else 0) := by
  have h := headerWord_toNat t len
  have hl := len.isLt
  have ht : typeNumber (headerWord t len) = t.toNat := by rw [typeNumber, h]; omega
  have hm : (headerWord t len).toNat % 8192 = len.toNat := by rw [h]; omega
  exact ⟨h, ht, by rw [declaredLength, ht, hm], by rw [escapeNumber, ht, hm]⟩

/-- Registers that hold a header word and its type. -/
theorem half_register (w : Half) : (w.setWidth 32 : Word) = BitVec.ofNat 32 w.toNat := by
  apply BitVec.eq_of_toNat_eq
  rw [BitVec.toNat_setWidth, BitVec.toNat_ofNat]

theorem headerType_register (w : Half) : ((headerType w).setWidth 32 : Word) = BitVec.ofNat 32 (typeNumber w) := by
  apply BitVec.eq_of_toNat_eq
  rw [BitVec.toNat_setWidth, BitVec.toNat_ofNat, headerType_toNat]
  rfl

theorem headerType_kind (w : Half) : (frameKind (headerType w)).code = BitVec.ofNat 32 (kindNumber (typeNumber w)) := by
  rw [frameKind_code, headerType_toNat]
  rfl

/-- All that decoding can change: RES and STATUS. -/
theorem decodeIn_eq (w sub : Half) (s : State) : ∃ r c, decodeIn w sub s = { s with res := r, status := c } := by
  simp only [decodeIn]
  cases decodeFrame s.inLen.toNat w sub <;> exact ⟨_, _, rfl⟩

/-! ## The header commands -/

theorem finishPack_error (e : Status) (s : State) : finishPack (.error e) s = afterRaise e.code s := rfl

theorem finishPack_ok (p : PackedHeader) (s : State) :
    finishPack (.ok p) s = { s with res := packedRes p, status := 0 } := rfl

/-- HDR.PACK with a TYPE above 7 raises INVALID_ARGUMENT, whatever TLEN holds. -/
theorem packOperands_type (s : State) (h : 7 < s.frameType.toNat) : packOperands s = .error .invalidArgument := by
  rw [packOperands, if_pos h]

/-- HDR.PACK with a legal TYPE packs TYPE and s32(TLEN). -/
theorem packOperands_legal (s : State) (h : s.frameType.toNat ≤ 7) :
    packOperands s = packHeader (typeOperand s) s.tlen.toInt := by
  rw [packOperands, if_neg (by omega)]; rfl

theorem typeOperand_toNat (s : State) (h : s.frameType.toNat ≤ 7) : (typeOperand s).toNat = s.frameType.toNat := by
  rw [typeOperand, BitVec.toNat_setWidth]; omega

/-- A packed header word as a register reads it. -/
theorem headerWord_register (t : Word) (l : Nat) (ht : t.toNat ≤ 7) (hl : l ≤ 8191) :
    (headerWord (t.setWidth 3) (BitVec.ofNat 13 l)).setWidth 32 = BitVec.ofNat 32 (l + t.toNat * 8192) := by
  apply BitVec.eq_of_toNat_eq
  rw [BitVec.toNat_setWidth, headerWord_toNat, BitVec.toNat_setWidth, BitVec.toNat_ofNat, BitVec.toNat_ofNat]
  omega

/-! ## The encoders' functions -/

theorem finishEncode_error (e : Status) (s : State) : finishEncode (.error e) s = afterEncodeRaise e.code s := rfl

theorem finishEncode_ok (f : EncodedFrame) (s : State) :
    finishEncode (.ok f) s =
      { s with
        mem := s.mem.setBytes outBase f.bytes
        outLen := BitVec.ofNat 32 f.bytes.length
        res := packedRes f.header
        status := 0 } := rfl

/-- Where an encoder's frame stands: its bytes from OUT[0] on, and nothing anywhere else. -/
theorem finishEncode_outByte (f : EncodedFrame) (s : State) (i : Nat) (h : i < f.bytes.length) :
    (finishEncode (.ok f) s).outByte i = f.bytes[i] := by
  simp only [finishEncode_ok, State.outByte, State.byteAt, get_setBytes_inside _ _ _ _ h, Option.getD_some]

theorem finishEncode_outside (f : EncodedFrame) (s : State) :
    sameBytesOutside outBase (outBase + f.bytes.length) s (finishEncode (.ok f) s) := by
  intro a h
  simp only [finishEncode_ok, State.byteAt, get_setBytes_outside _ _ _ _ h]

theorem paramsOperand_length (s : State) : (paramsOperand s).length = s.inLen.toNat := by simp [paramsOperand]

theorem paramsOperand_getElem (s : State) (i : Nat) (h : i < (paramsOperand s).length) :
    (paramsOperand s)[i] = s.inByte i := by
  simp [paramsOperand, inBytes_getElem]

theorem encodeControl_type (t c : Word) (p : List Byte) (h : 3 < t.toNat) :
    encodeControl t c p = .error .invalidArgument := by simp [encodeControl, h]

theorem encodeControl_item (t c : Word) (p : List Byte) (hc : c.toNat ∉ itemNumbers) :
    encodeControl t c p = .error .invalidArgument := by
  have hk : knownItem c = false := by
    rw [Bool.eq_false_iff]
    exact fun hk => hc ((knownItem_iff c).1 hk)
  simp [encodeControl, hk]

theorem encodeControl_tooLong (t c : Word) (p : List Byte) (h : t.toNat ≤ 3) (hc : c.toNat ∈ itemNumbers)
    (hn : 8191 < 4 + p.length) : encodeControl t c p = .error .encodeTooLong := by
  have hk := (knownItem_iff c).2 hc
  simp [encodeControl, hk, show ¬ 3 < t.toNat by omega, hn]

theorem encodeControl_ok (t c : Word) (p : List Byte) (h : t.toNat ≤ 3) (hc : c.toNat ∈ itemNumbers)
    (hn : 4 + p.length ≤ 8191) :
    encodeControl t c p = .ok
      ⟨bytesLe16 (headerWord (t.setWidth 3) (BitVec.ofNat 13 (4 + p.length))) ++ bytesLe16 (c.setWidth 16) ++ p,
        ⟨headerWord (t.setWidth 3) (BitVec.ofNat 13 (4 + p.length)), false⟩⟩ := by
  have hk := (knownItem_iff c).2 hc
  simp only [encodeControl, hk, show ¬ 3 < t.toNat by omega, show ¬ 8191 < 4 + p.length by omega, if_false,
    packHeader_field _ _ hn]
  rfl

theorem encodeData_type (t : Word) (p : List Byte) (h : t.toNat < 4 ∨ 7 < t.toNat) :
    encodeData t p = .error .invalidArgument := by simp [encodeData, h]

theorem encodeData_short (t : Word) (p : List Byte) (h : t.toNat = 4 ∨ t.toNat = 5) (hp : p.length < 2) :
    encodeData t p = .error .invalidArgument := by
  simp [encodeData, h, hp]

theorem encodeData_tooLong (t : Word) (p : List Byte) (h : 4 ≤ t.toNat) (h' : t.toNat ≤ 7) (hp : 8191 < 2 + p.length)
    (he : 2 + p.length ≠ 8194) : encodeData t p = .error .encodeTooLong := by
  simp only [encodeData, show ¬ (t.toNat < 4 ∨ 7 < t.toNat) by omega,
    show ¬ ((t.toNat = 4 ∨ t.toNat = 5) ∧ p.length < 2) by omega, if_false]
  rw [packHeader_tooLong _ _ hp (by omega)]

theorem encodeData_ok (t : Word) (p : List Byte) (h : 4 ≤ t.toNat) (h' : t.toNat ≤ 7)
    (hs : ¬((t.toNat = 4 ∨ t.toNat = 5) ∧ p.length < 2)) (hp : 2 + p.length ≤ 8191) :
    encodeData t p = .ok
      ⟨bytesLe16 (headerWord (t.setWidth 3) (BitVec.ofNat 13 (2 + p.length))) ++ p,
        ⟨headerWord (t.setWidth 3) (BitVec.ofNat 13 (2 + p.length)), false⟩⟩ := by
  simp only [encodeData, show ¬ (t.toNat < 4 ∨ 7 < t.toNat) by omega, hs, if_false, packHeader_field _ _ hp]

theorem encodeData_escape (t : Word) (p : List Byte) (h : 4 ≤ t.toNat) (h' : t.toNat ≤ 7) (hp : 2 + p.length = 8194) :
    encodeData t p = .ok
      ⟨bytesLe16 (headerWord (t.setWidth 3) 0) ++ p, ⟨headerWord (t.setWidth 3) 0, true⟩⟩ := by
  have ht : (t.setWidth 3 : FrameType).toNat = t.toNat := by
    simp [BitVec.toNat_setWidth, Nat.mod_eq_of_lt (show t.toNat < 8 by omega)]
  simp only [encodeData, show ¬ (t.toNat < 4 ∨ 7 < t.toNat) by omega,
    show ¬ ((t.toNat = 4 ∨ t.toNat = 5) ∧ p.length < 2) by omega, if_false]
  rw [hp, packHeader_escape _ (by omega)]

/-! ## The register window -/

theorem atOffset_offset (r : Reg) : Reg.atOffset r.offset = some r := by cases r <;> rfl

theorem offset_of_atOffset (off : Nat) (r : Reg) (h : Reg.atOffset off = some r) : r.offset = off := by
  simpa using List.find?_some h

theorem atOffset_reserved (off : Nat) (h : 0x6C ≤ off) : Reg.atOffset off = none := by
  rw [Reg.atOffset, List.find?_eq_none]
  intro r _
  have hr : r.offset < 0x6C := by cases r <;> decide
  intro he
  have := beq_iff_eq.1 he
  omega

/-! ## The address map -/

theorem inCap_bounds : 8195 ≤ Config.inCap ∧ Config.inCap ≤ 65535 := by
  have h : Config.inCapExtra.val < 57341 := Config.inCapExtra.isLt
  unfold Config.inCap
  omega

/-- INCAP reads as the capacity itself: it fits its register. -/
theorem readReg_inCap (s : State) : (s.readReg .inCap).toNat = Config.inCap := by
  have h := inCap_bounds
  rw [show s.readReg .inCap = BitVec.ofNat 32 Config.inCap from rfl, BitVec.toNat_ofNat]
  exact Nat.mod_eq_of_lt (by omega)

theorem target_register (a : Address) (h : a.toNat < 0x100) : target a = .register a.toNat := by
  simp only [target]
  rw [if_pos h]

theorem target_in (a : Address) (i : Nat) (h : i < Config.inCap) (ha : a.toNat = inBase + i) : target a = .inByte i := by
  have := inCap_bounds
  simp only [target, inBase, outBase] at ha ⊢
  rw [if_neg (by omega), if_neg (by omega), if_pos (by omega), if_pos (by omega), ha, Nat.add_sub_cancel_left]

theorem target_out (a : Address) (i : Nat) (h : i < Config.outCap) (ha : a.toNat = outBase + i) :
    target a = .outByte i := by
  simp only [target, inBase, outBase, Config.outCap] at h ha ⊢
  rw [if_neg (by omega), if_neg (by omega), if_neg (by omega), if_pos (by omega), ha, Nat.add_sub_cancel_left]

theorem target_unmapped (a : Address)
    (h : (0x100 ≤ a.toNat ∧ a.toNat < 0x10000) ∨ (0x10000 + Config.inCap ≤ a.toNat ∧ a.toNat < 0x20000) ∨
      0x22002 ≤ a.toNat) : target a = .unmapped := by
  simp only [target, inBase, outBase, Config.outCap]
  split
  · omega
  · split
    · rfl
    · split
      · rw [if_neg (by omega)]
      · rw [if_neg (by omega)]

/-! ## The step -/

/-- The one access that runs a command, and every other write. -/
theorem commandOf_cmd (v : Word) : commandOf (.write 4 0x00000 v) = some (decodeCommand v) := rfl

theorem commandOf_write_none (width : Nat) (a : Address) (v : Word) (h : ¬(width = 4 ∧ a.toNat = 0)) :
    commandOf (.write width a v) = none := if_neg h

/-- A step with a pending access that runs a command. -/
theorem step_command (s : State) (x : HostAccess) (rest : List HostAccess) (i : Instr) (hs : s.host = x :: rest)
    (hc : commandOf x = some i) : step s = exec i { s with host := rest } := by
  simp [step, hs, hc]

/-- A step with a pending access that runs none. -/
theorem step_access (s : State) (x : HostAccess) (rest : List HostAccess) (hs : s.host = x :: rest)
    (hc : commandOf x = none) : step s = busAccess x { s with host := rest } := by
  simp [step, hs, hc]

/-- A step with nothing pending. -/
theorem step_idle (s : State) (hs : s.host = []) : step s = .next s := by simp [step, hs]

/-- What an access that runs no command can do: it is refused for its shape, or it is one of these. -/
theorem busAccess_next (x : HostAccess) (s t : State) (h : busAccess x s = .next t) :
    (∃ w a, x = .read w a ∧ supportedAccess w a = true ∧ t = busRead a s) ∨
    (∃ w a v, x = .write w a v ∧ supportedAccess w a = true ∧ t = busWrite a v s) ∨
    (x = .reset ∧ t = resetBlock s) := by
  cases x with
  | read w a =>
    simp only [busAccess] at h
    split at h
    · next hs => exact .inl ⟨w, a, rfl, hs, by simpa using h.symm⟩
    · simp at h
  | write w a v =>
    simp only [busAccess] at h
    split at h
    · next hs => exact .inr (.inl ⟨w, a, v, rfl, hs, by simpa using h.symm⟩)
    · simp at h
  | reset => exact .inr (.inr ⟨rfl, by simpa [busAccess] using h.symm⟩)

/-- A host read changes the data it returns and, for an unspecified byte, the count of them; nothing else. -/
theorem busRead_eq (a : Address) (s : State) :
    ∃ d n, busRead a s = { s with readData := d, draws := n } := by
  simp only [busRead]
  split
  · simp only [readRegister]
    split <;> exact ⟨_, _, rfl⟩
  · simp only [readIn]
    split <;> exact ⟨_, _, rfl⟩
  · simp only [readOut]
    split <;> exact ⟨_, _, rfl⟩
  · exact ⟨_, _, rfl⟩

end Sys2Proof.Laws
end

