-- ==== Sys2Proof/Laws/PerInstr.lean ====
section
/-! SUPPORT. Statements about every instruction, one lemma per constructor. -/

namespace Sys2Proof.Laws

/-- The encoding is as long as the domain's words: 4 bytes for a command, 2 for a header word or an item code
(30_encoding.md R90, R110). -/
def EncodedLength.Statement (i : Instr) : Prop := (encode i).length = i.domain.bytes

theorem EncodedLength.nop : EncodedLength.Statement .nop := rfl
theorem EncodedLength.hdrPack : EncodedLength.Statement .hdrPack := rfl
theorem EncodedLength.hdrUnpack : EncodedLength.Statement .hdrUnpack := rfl
theorem EncodedLength.encCtrl : EncodedLength.Statement .encCtrl := rfl
theorem EncodedLength.encData : EncodedLength.Statement .encData := rfl
theorem EncodedLength.decode : EncodedLength.Statement .decode := rfl
theorem EncodedLength.smpStart : EncodedLength.Statement .smpStart := rfl
theorem EncodedLength.smpNext : EncodedLength.Statement .smpNext := rfl
theorem EncodedLength.illegal (v : Word) : EncodedLength.Statement (.illegal v) := rfl
theorem EncodedLength.setControlItem (len : LengthField) : EncodedLength.Statement (.setControlItem len) := rfl
theorem EncodedLength.currentControlItem (len : LengthField) : EncodedLength.Statement (.currentControlItem len) := rfl
theorem EncodedLength.controlItemRange (len : LengthField) : EncodedLength.Statement (.controlItemRange len) := rfl
theorem EncodedLength.ack (len : LengthField) : EncodedLength.Statement (.ack len) := rfl
theorem EncodedLength.dataItem0 (len : LengthField) : EncodedLength.Statement (.dataItem0 len) := rfl
theorem EncodedLength.dataItem1 (len : LengthField) : EncodedLength.Statement (.dataItem1 len) := rfl
theorem EncodedLength.dataItem2 (len : LengthField) : EncodedLength.Statement (.dataItem2 len) := rfl
theorem EncodedLength.dataItem3 (len : LengthField) : EncodedLength.Statement (.dataItem3 len) := rfl
theorem EncodedLength.itemNone : EncodedLength.Statement .itemNone := rfl
theorem EncodedLength.receiverState : EncodedLength.Statement .receiverState := rfl
theorem EncodedLength.receiverFrequency : EncodedLength.Statement .receiverFrequency := rfl
theorem EncodedLength.rfFilter : EncodedLength.Statement .rfFilter := rfl
theorem EncodedLength.adModes : EncodedLength.Statement .adModes := rfl
theorem EncodedLength.iqOutputDataSampleRate : EncodedLength.Statement .iqOutputDataSampleRate := rfl

end Sys2Proof.Laws
end

