-- ==== Sys2Proof/Laws/Samples.lean ====
section
/-! SUPPORT. The sample unpacker's operations: little-endian values, the fields of SU_STATE, arming and disarming. -/

namespace Sys2Proof.Laws

open Sys2Proof.Machine

/-- A little-endian value as the sum 20_memory.md R67 writes. -/
theorem leValue_sum (l : List Byte) : leValue l = ∑ j ∈ Finset.range l.length, (l.getD j 0).toNat * 256 ^ j := by
  induction l with
  | nil => rfl
  | cons b bs ih =>
    rw [leValue, List.length_cons, Finset.sum_range_succ', ih, Finset.mul_sum]
    simp only [List.getD_cons_zero, List.getD_cons_succ, pow_zero, mul_one, pow_succ]
    rw [Nat.add_comm]
    congr 1
    exact Finset.sum_congr rfl fun j _ => by ring

theorem leValue_lt (l : List Byte) : leValue l < 256 ^ l.length := by
  induction l with
  | nil => simp [leValue]
  | cons b bs ih =>
    rw [leValue, List.length_cons, pow_succ]
    have := b.isLt
    omega

/-! ## The fields of SU_STATE -/

theorem armed_eq (c : Cursor) : c.armed = decide (c.state.toNat % 2 = 1) := by
  simp only [Cursor.armed, BitVec.getLsbD, Nat.testBit_zero]

theorem bps_eq (c : Cursor) : c.bps = c.state.toNat / 256 % 8 := by
  simp only [Cursor.bps, BitVec.extractLsb'_toNat, Nat.shiftRight_eq_div_pow]

theorem width_eq (c : Cursor) : c.width = c.state.toNat / 65536 % 64 := by
  simp only [Cursor.width, BitVec.extractLsb'_toNat, Nat.shiftRight_eq_div_pow]

/-- Disarming subtracts the ARMED bit and changes no other. -/
theorem disarm_state_toNat (c : Cursor) : c.disarm.state.toNat = c.state.toNat - c.state.toNat % 2 := by
  have h : c.state &&& 0xFFFFFFFE#32 = c.state >>> 1 <<< 1 := by
    ext i hi
    interval_cases i <;> simp
  have hlt := c.state.isLt
  simp only [Cursor.disarm, h, BitVec.toNat_shiftLeft, BitVec.toNat_ushiftRight, Nat.shiftRight_eq_div_pow,
    Nat.shiftLeft_eq]
  omega

theorem disarm_armed (c : Cursor) : c.disarm.armed = false := by
  rw [armed_eq, disarm_state_toNat]
  simp only [decide_eq_false_iff_not]
  omega

theorem disarm_bps (c : Cursor) : c.disarm.bps = c.bps := by
  rw [bps_eq, bps_eq, disarm_state_toNat]
  omega

theorem disarm_width (c : Cursor) : c.disarm.width = c.width := by
  rw [width_eq, width_eq, disarm_state_toNat]
  omega

/-! ## Arming -/

/-- SU_STATE of an armed cursor as a number. -/
theorem armedState_toNat (b : Nat) (w : Word) (hb : b < 8) (hw : w.toNat < 64) :
    (armedState b w).toNat = 1 + b * 256 + w.toNat * 65536 := by
  have h : armedState b w = BitVec.ofNat 32 (1 + b * 256 + w.toNat * 65536) := by
    obtain ⟨m, hm⟩ : ∃ m, m = w.toNat := ⟨_, rfl⟩
    have hm' : w = BitVec.ofNat 32 m := by simp [hm]
    rw [← hm] at hw ⊢
    rw [hm']
    interval_cases b <;> interval_cases m <;> rfl
  rw [h, BitVec.toNat_ofNat]
  omega

theorem validWidth_iff (w : Nat) : validWidth w = true ↔ 1 ≤ w ∧ w ≤ 32 := by simp [validWidth]

end Sys2Proof.Laws
end

