-- ==== Sys2Proof/Laws/Step.lean ====
section
/-! SUPPORT. What a command and a step can do, said once: every later proof over all instructions or all steps splits on
these cases and unfolds nothing. -/

namespace Sys2Proof.Laws

open Sys2Proof.Machine

/-- What an instruction can change: RES and STATUS; or the cursor and STATUS; or it is an encoder. -/
theorem exec_cases (i : Instr) (s t : State) (h : exec i s = .next t) :
    (∃ r c, t = { s with res := r, status := c }) ∨
    (∃ u c, (i = .smpStart ∨ i = .smpNext) ∧ t = { s with su := u, status := c }) ∨
    (i = .encCtrl ∧ t = finishEncode (encodeControl s.frameType s.item (paramsOperand s)) s) ∨
    (i = .encData ∧ t = finishEncode (encodeData s.frameType (paramsOperand s)) s) := by
  cases i
  case encCtrl => cases h; exact .inr (.inr (.inl ⟨rfl, rfl⟩))
  case encData => cases h; exact .inr (.inr (.inr ⟨rfl, rfl⟩))
  case nop => cases h; exact .inl ⟨_, _, rfl⟩
  case illegal => cases h; exact .inl ⟨_, _, rfl⟩
  case hdrPack =>
    cases h
    refine .inl ?_
    cases packOperands s <;> exact ⟨_, _, rfl⟩
  case hdrUnpack =>
    simp only [exec, execHdrUnpack] at h
    split at h <;> cases h <;> exact .inl ⟨_, _, rfl⟩
  case smpStart =>
    simp only [exec, execSmpStart] at h
    split at h
    · cases h; exact .inr (.inl ⟨_, _, .inl rfl, rfl⟩)
    · split at h <;> cases h <;> exact .inr (.inl ⟨_, _, .inl rfl, rfl⟩)
  case smpNext =>
    simp only [exec, execSmpNext] at h
    split at h
    · cases h; exact .inr (.inl ⟨s.su, _, .inr rfl, rfl⟩)
    · split at h
      · cases h; exact .inr (.inl ⟨s.su, _, .inr rfl, rfl⟩)
      · cases h; exact .inr (.inl ⟨_, _, .inr rfl, rfl⟩)
  all_goals
    cases h
    exact .inl (decodeIn_eq _ _ _)

/-- A frame that an encoder makes fits OUT and holds at least a header. -/
theorem encodeControl_length (t c : Word) (p : List Byte) (f : EncodedFrame) (h : encodeControl t c p = .ok f) :
    4 ≤ f.bytes.length ∧ f.bytes.length ≤ 8191 := by
  by_cases ht : 3 < t.toNat
  · rw [encodeControl_type _ _ _ ht] at h; simp at h
  · by_cases hc : c.toNat ∈ itemNumbers
    · by_cases hp : 4 + p.length ≤ 8191
      · rw [encodeControl_ok _ _ _ (by omega) hc hp] at h
        simp only [Except.ok.injEq] at h
        subst h
        simp only [List.length_append, bytesLe16_length]
        omega
      · rw [encodeControl_tooLong _ _ _ (by omega) hc (by omega)] at h; simp at h
    · rw [encodeControl_item _ _ _ hc] at h; simp at h

theorem encodeData_length (t : Word) (p : List Byte) (f : EncodedFrame) (h : encodeData t p = .ok f) :
    f.bytes.length = 2 + p.length ∧ (f.bytes.length ≤ 8191 ∨ f.bytes.length = 8194) := by
  by_cases ht : t.toNat < 4 ∨ 7 < t.toNat
  · rw [encodeData_type _ _ ht] at h; simp at h
  · by_cases hs : (t.toNat = 4 ∨ t.toNat = 5) ∧ p.length < 2
    · rw [encodeData_short _ _ hs.1 hs.2] at h; simp at h
    · by_cases hp : 2 + p.length ≤ 8191
      · rw [encodeData_ok _ _ (by omega) (by omega) hs hp] at h
        simp only [Except.ok.injEq] at h
        subst h
        simp only [List.length_append, bytesLe16_length]
        exact ⟨trivial, .inl hp⟩
      · by_cases he : 2 + p.length = 8194
        · rw [encodeData_escape _ _ (by omega) (by omega) he] at h
          simp only [Except.ok.injEq] at h
          subst h
          simp only [List.length_append, bytesLe16_length]
          exact ⟨trivial, .inr he⟩
        · rw [encodeData_tooLong _ _ (by omega) (by omega) (by omega) he] at h; simp at h

/-- What a write to a register that runs no command can change: operand registers; or IN_LEN, with the cursor
disarmed. -/
theorem writeReg_cases (r : Reg) (v : Word) (s : State) :
    (∃ a b c d e f g, s.writeReg r v =
      { s with frameType := a, item := b, tlen := c, hdr := d, width := e, soff := f, slen := g }) ∨
    (∃ n : Word, s.writeReg r v = { s with inLen := n, su := s.su.disarm } ∧
      (n = s.inLen ∨ n.toNat ≤ Config.inCap)) := by
  cases r
  case inLen =>
    refine .inr ?_
    simp only [State.writeReg, State.writeInLen]
    split
    · next h => exact ⟨v, rfl, .inr h⟩
    · exact ⟨s.inLen, rfl, .inl rfl⟩
  all_goals exact .inl ⟨_, _, _, _, _, _, _, rfl⟩

theorem target_inByte_lt (a : Address) (i : Nat) (h : target a = .inByte i) : i < Config.inCap := by
  simp only [target] at h
  split at h
  · simp at h
  · split at h
    · simp at h
    · split at h
      · split at h
        · next hi =>
          simp only [Target.inByte.injEq] at h
          rw [← h]
          exact hi
        · simp at h
      · split at h <;> simp at h

/-- What a write that runs no command can do: write a register, write a byte of IN, or nothing. -/
theorem busWrite_cases (a : Address) (v : Word) (s : State) :
    (∃ r, busWrite a v s = s.writeReg r v) ∨
    (∃ i b, i < Config.inCap ∧ busWrite a v s = writeIn i b s) ∨
    busWrite a v s = s := by
  simp only [busWrite]
  split
  · simp only [writeRegister]
    split
    · exact .inl ⟨_, rfl⟩
    · exact .inr (.inr rfl)
  · next i h => exact .inr (.inl ⟨i, _, target_inByte_lt a i h, rfl⟩)
  · exact .inr (.inr rfl)
  · exact .inr (.inr rfl)

/-- What a step can do: hold the state, run a command, or perform another access. -/
theorem step_cases (s t : State) (h : step s = .next t) :
    t = s ∨ ∃ x rest, s.host = x :: rest ∧
      ((∃ i, commandOf x = some i ∧ exec i { s with host := rest } = .next t) ∨
        (commandOf x = none ∧ busAccess x { s with host := rest } = .next t)) := by
  cases hs : s.host with
  | nil =>
    rw [step_idle s hs] at h
    cases h
    exact .inl rfl
  | cons x rest =>
    refine .inr ⟨x, rest, rfl, ?_⟩
    cases hc : commandOf x with
    | none =>
      rw [step_access s x rest hs hc] at h
      exact .inr ⟨rfl, h⟩
    | some i =>
      rw [step_command s x rest i hs hc] at h
      exact .inl ⟨i, rfl, h⟩

/-! ## Between two commands -/

/-- What an access that runs no command, writes neither IN nor IN_LEN and is no reset can change: the operand registers,
and what the host has read. -/
theorem busAccess_keepsInput (x : HostAccess) (s t : State) (h : busAccess x s = .next t) (hw : ¬ writesInput x)
    (hr : x ≠ .reset) :
    ∃ a b c d e f g r n, t =
      { s with
        frameType := a, item := b, tlen := c, hdr := d, width := e, soff := f, slen := g, readData := r, draws := n } := by
  rcases busAccess_next x s t h with ⟨w, a, rfl, _, rfl⟩ | ⟨w, a, v, rfl, _, rfl⟩ | ⟨rfl, _⟩
  · obtain ⟨r, n, e⟩ := busRead_eq a s
    exact ⟨_, _, _, _, _, _, _, r, n, e⟩
  · simp only [writesInput, not_or, not_exists] at hw
    simp only [busWrite]
    split
    · next off ht =>
      have hoff : off = a.toNat := by
        simp only [target] at ht
        split at ht
        · simpa using ht.symm
        · split at ht
          · simp at ht
          · split at ht <;> split at ht <;> simp at ht
      simp only [writeRegister]
      split
      · next r hreg =>
        have hro := offset_of_atOffset _ _ hreg
        cases r
        case inLen => exact absurd (hoff ▸ hro.symm) hw.2
        all_goals exact ⟨_, _, _, _, _, _, _, _, _, rfl⟩
      · exact ⟨_, _, _, _, _, _, _, _, _, rfl⟩
    · next i ht => exact absurd ht (hw.1 i)
    · exact ⟨_, _, _, _, _, _, _, _, _, rfl⟩
    · exact ⟨_, _, _, _, _, _, _, _, _, rfl⟩
  · exact absurd rfl hr

/-- What a single event is: the instruction it runs, or an access that runs none. -/
theorem happen_cases (s t : State) (e : Event) (h : happen s e = .next t) :
    (∃ i w, e.instr = some i ∧ exec i { s with host := w } = .next t) ∨
      (∃ x, e = .access x ∧ e.instr = none ∧ busAccess x { s with host := [] } = .next t) := by
  cases e with
  | run i => exact .inl ⟨i, s.host, rfl, h⟩
  | access x =>
    cases hc : commandOf x with
    | some i =>
      rw [happen, step_command _ x [] i rfl hc] at h
      exact .inl ⟨i, [], hc, h⟩
    | none =>
      rw [happen, step_access _ x [] rfl hc] at h
      exact .inr ⟨x, rfl, hc, h⟩

theorem happenAll_cons (s t : State) (e : Event) (rest : List Event) (h : happenAll s (e :: rest) = .next t) :
    ∃ u, happen s e = .next u ∧ happenAll u rest = .next t := by
  simp only [happenAll] at h
  split at h
  · next u hu => exact ⟨u, hu, h⟩
  · simp at h
  · simp at h

/-- A run goes on from where its first part ended. -/
theorem happenAll_append (s : State) (l m : List Event) (t : State) (h : happenAll s l = .next t) :
    happenAll s (l ++ m) = happenAll t m := by
  induction l generalizing s with
  | nil =>
    simp only [happenAll, Host.Outcome.next.injEq] at h
    rw [h, List.nil_append]
  | cons e l ih =>
    obtain ⟨u, hu, hl⟩ := happenAll_cons s t e l h
    rw [List.cons_append, happenAll, hu]
    exact ih u hl

end Sys2Proof.Laws
end

