-- ==== Sys2Proof/Tests/Slice0.lean ====
section
/-! SUPPORT. The model's own tests. Expected values are the spec's: the worked examples and vectors of
95_test_vectors.md and the examples in the rules, never the model's own answers. -/

namespace Sys2Proof.Tests

open Sys2Proof.Machine

/-- The state that a `load` leaves (30_encoding.md R116), all else as at reset. -/
def loaded (bs : List Byte) : State :=
  { State.reset with mem := Memory.setBytes [] inBase bs, inLen := BitVec.ofNat 32 bs.length }

/-- The state after an instruction, or the state before it where there is none. -/
def after (i : Instr) (s : State) : State :=
  match exec i s with
  | .next t => t
  | .fault _ => s
  | .refused _ => s

/-- The state after one step, or the state before it where there is none. -/
def stepped (s : State) : State :=
  match step s with
  | .next t => t
  | .fault _ => s
  | .refused _ => s

/-! ## Well-formed terms: the one check, with a term it refuses -/

theorem test_illegal_of_a_legal_word_is_ill_formed : (Instr.illegal 5#32).wellFormed = false := by decide

theorem test_illegal_of_0x105_is_well_formed : (Instr.illegal 0x105#32).wellFormed = true := by decide

/-! ## Decoding: words written out from the encoding tables (30_encoding.md R91, R95, R111) -/

theorem test_decode_nop : decodeTableWord 32 0b00000000000000000000000000000000 = some .nop := by decide
theorem test_decode_hdrPack : decodeTableWord 32 0b00000000000000000000000000000001 = some .hdrPack := by decide
theorem test_decode_hdrUnpack : decodeTableWord 32 0b00000000000000000000000000000010 = some .hdrUnpack := by decide
theorem test_decode_encCtrl : decodeTableWord 32 0b00000000000000000000000000000011 = some .encCtrl := by decide
theorem test_decode_encData : decodeTableWord 32 0b00000000000000000000000000000100 = some .encData := by decide
theorem test_decode_decode : decodeTableWord 32 0b00000000000000000000000000000101 = some .decode := by decide
theorem test_decode_smpStart : decodeTableWord 32 0b00000000000000000000000000000110 = some .smpStart := by decide
theorem test_decode_smpNext : decodeTableWord 32 0b00000000000000000000000000000111 = some .smpNext := by decide
theorem test_decode_illegal_opcode : decodeTableWord 32 0xFF = some (.illegal 0xFF#32) := by decide
theorem test_decode_illegal_high_bit : decodeTableWord 32 0x105 = some (.illegal 0x105#32) := by decide

/-- Type 000, length field 0000000001001. -/
theorem test_decode_setControlItem : decodeTableWord 16 0b0000000000001001 = some (.setControlItem 9) := by decide
theorem test_decode_currentControlItem :
    decodeTableWord 16 0b0010000000000100 = some (.currentControlItem 4) := by decide
theorem test_decode_controlItemRange :
    decodeTableWord 16 0b0101111111111111 = some (.controlItemRange 8191) := by decide
/-- 0x7D50, the header of 95_test_vectors.md S1. -/
theorem test_decode_ack : decodeTableWord 16 0b0111110101010000 = some (.ack 7504) := by decide
theorem test_decode_dataItem0 : decodeTableWord 16 0b1000000000000000 = some (.dataItem0 0) := by decide
theorem test_decode_dataItem1 : decodeTableWord 16 0b1010000000001000 = some (.dataItem1 8) := by decide
/-- 0xDD4E, the header of 95_test_vectors.md S2. -/
theorem test_decode_dataItem2 : decodeTableWord 16 0b1101110101001110 = some (.dataItem2 7502) := by decide
theorem test_decode_dataItem3 : decodeTableWord 16 0b1110000000000001 = some (.dataItem3 1) := by decide

theorem test_decode_itemNone : decodeTableWord 16 0b0000000000000000 = some .itemNone := by decide
theorem test_decode_receiverState : decodeTableWord 16 0b0000000000011000 = some .receiverState := by decide
theorem test_decode_receiverFrequency : decodeTableWord 16 0b0000000000100000 = some .receiverFrequency := by decide
theorem test_decode_rfFilter : decodeTableWord 16 0b0000000001000100 = some .rfFilter := by decide
theorem test_decode_adModes : decodeTableWord 16 0b0000000010001010 = some .adModes := by decide
theorem test_decode_sampleRate : decodeTableWord 16 0b0000000010111000 = some .iqOutputDataSampleRate := by decide

/-- 30_encoding.md R92: type 3, length 4 is the bytes 04 60. -/
theorem test_encode_ack_bytes : encode (.ack 4) = [0x04, 0x60] := by decide

theorem test_unknown_item_code_is_rejected :
    decodeBytes .item [0x01, 0x00] = .error (.unknownItemCode 0x0001#16) := by rfl

/-! ## Commands: the vectors of 95_test_vectors.md section 2 -/

theorem test_nop_clears_status : (after .nop { State.reset with status := 2 }).status = 0 := by decide

theorem test_illegal_raises : (after (.illegal 0xFF#32) State.reset).status = 0x0A := by decide

theorem test_hdrPack_escape :
    (after .hdrPack { State.reset with frameType := 4, tlen := 8194 }).res.hdr = 0x8000
      ∧ (after .hdrPack { State.reset with frameType := 4, tlen := 8194 }).res.esc = 1 := by decide

theorem test_hdrPack_type_is_checked_first :
    (after .hdrPack { State.reset with frameType := 8, tlen := 0xFFFFFFFF }).status = 7
      ∧ (after .hdrPack { State.reset with frameType := 7, tlen := 8193 }).status = 6 := by decide

theorem test_hdrUnpack_no_escape_for_control :
    (after .hdrUnpack { State.reset with hdr := 0x6000 }).res.decLen = 0
      ∧ (after .hdrUnpack { State.reset with hdr := 0x8000 }).res.decLen = 8194 := by decide

theorem test_hdrUnpack_seventeen_bits : (after .hdrUnpack { State.reset with hdr := 0x10000 }).status = 7 := by decide

/-- ENC.CTRL 0, 0x0020 over 00 01 02 03 04 gives 09 00 20 00 00 01 02 03 04. -/
theorem test_encCtrl_frame :
    (after .encCtrl { loaded [0, 1, 2, 3, 4] with item := 0x20 }).outBytes 0 9
      = [0x09, 0x00, 0x20, 0x00, 0x00, 0x01, 0x02, 0x03, 0x04] := by decide

theorem test_encCtrl_item_is_not_truncated :
    (after .encCtrl { loaded [] with frameType := 3, item := 0x10018 }).status = 7 := by decide

/-- ENC.DATA 5 over 34 12 01 02 03 04 gives 08 A0 34 12 01 02 03 04. -/
theorem test_encData_frame :
    (after .encData { loaded [0x34, 0x12, 1, 2, 3, 4] with frameType := 5 }).outBytes 0 8
      = [0x08, 0xA0, 0x34, 0x12, 0x01, 0x02, 0x03, 0x04] := by decide

theorem test_encData_dataItem0_needs_two_bytes :
    (after .encData { loaded [0x18] with frameType := 4 }).status = 7 := by decide

/-- The DECODE vector 08 A0 34 12 01 02 FF FF. -/
theorem test_decode_sequence_number :
    (after .decode (loaded [0x08, 0xA0, 0x34, 0x12, 0x01, 0x02, 0xFF, 0xFF])).res
      = ⟨2, 5, 0, 0x1234, 4, 4, 0xA008, 8, 0⟩ := by decide

/-- 04 60 18: the length check wins over TRUNCATED; 02 00: TRUNCATED. -/
theorem test_decode_priority :
    (after .decode (loaded [0x04, 0x60, 0x18])).status = 2 ∧ (after .decode (loaded [0x02, 0x00])).status = 4 := by decide

/-- WIDTH 24 over six bytes: SU_STATE 0x0018_0301, SU_COUNT 2. -/
theorem test_smpStart_state :
    (after .smpStart { loaded [1, 2, 3, 4, 5, 6] with width := 24, slen := 6 }).su = ⟨0x00180301, 0, 2, 0, 0⟩ := by decide

/-- SOFF 0xFFFF_FFFF with SLEN 2: no wrap-around. -/
theorem test_smpStart_window_does_not_wrap :
    (after .smpStart { loaded [1, 2, 3, 4] with width := 32, soff := 0xFFFFFFFF, slen := 2 }).status = 7 := by decide

/-- FF FF at width 16 is 0x0000_FFFF, not −1. -/
theorem test_smpNext_no_sign_extension :
    (after .smpNext { loaded [0xFF, 0xFF] with su := ⟨0x00100201, 0, 1, 0, 0⟩ }).su = ⟨0x00100201, 0, 1, 1, 0xFFFF⟩ := by
  decide

theorem test_smpNext_end :
    (after .smpNext { loaded [0xFF, 0xFF] with su := ⟨0x00100201, 0, 1, 1, 0xFFFF⟩ }).status = 8 := by decide

/-! ## Frames and item codes, in a frame that holds them -/

theorem test_ack_reports_type_3 : (after (.ack 4) (loaded [0x04, 0x60, 0x18, 0x00])).res.frameType = 3 := by decide

theorem test_dataItem3_body_at_2 :
    (after (.dataItem3 4) (loaded [0x04, 0xE0, 0x01, 0x02])).res = ⟨3, 7, 0, 0, 2, 2, 0xE004, 4, 0⟩ := by decide

theorem test_receiverState_reports_item :
    (after .receiverState (loaded [0x04, 0x60, 0x18, 0x00])).res.item = 0x18 := by decide

/-! ## The host port (95_test_vectors.md section 2.8) and the step -/

theorem test_read_id : (stepped { State.reset with host := [.read 4 0x64 ] }).readData = 0x46435301 := by decide

theorem test_reserved_offset_reads_0 :
    (stepped { State.reset with readData := 1, host := [.read 4 0x70] }).readData = 0 := by decide

theorem test_status_write_is_ignored : (stepped { State.reset with host := [.write 4 0x04 5] }).status = 0 := by decide

/-- A write to IN[0] disarms the cursor and leaves BPS and WIDTH (program P4). -/
theorem test_in_write_disarms :
    (stepped { State.reset with su := ⟨0x000C0201, 0, 1, 0, 0⟩, host := [.write 1 0x10000 0] }).su.state = 0x000C0200 := by
  decide +kernel

theorem test_byte_access_to_a_register_is_refused :
    (match step { State.reset with host := [.read 1 0x04] } with
      | .refused r => some r
      | _ => none) = some (.unsupportedAccess 1 0x04) := by decide

/-- A word placed by withFetchWord is what the next step runs: DECODE right after reset raises EMPTY. -/
theorem test_step_runs_the_placed_word : (stepped (State.reset.withFetchWord 32 5)).status = 1 := by decide

theorem test_step_runs_the_placed_header :
    (stepped (State.reset.withFetchWord 16 0x7D50)).res = ⟨0, 3, 0, 0, 4, 7500, 0x7D50, 7504, 0⟩ := by decide

theorem test_step_runs_the_placed_item : (stepped (State.reset.withFetchWord 16 0x18)).res.item = 0x18 := by decide

/-! ## The host assembly (30_encoding.md R115, R116) -/

/-- The first line of program P1 of 95_test_vectors.md as accesses: three byte writes and IN_LEN. -/
theorem test_load_accesses :
    (AsmLine.load [0x80, 0x01, 0xAA]).accesses State.reset
      = [.write 1 0x10000 0x80, .write 1 0x10001 0x01, .write 1 0x10002 0xAA, .write 4 0x24 3] := by decide

/-- A taken branch goes to its label, one not taken to the next line. Each label is there once. -/
theorem test_branch :
    (AsmLine.ifNe .status 0 "end").following [.run .nop, .label "end"] 0 8 = 1
      ∧ (AsmLine.ifEq .status 0 "end").following [.run .nop, .run .nop, .label "end"] 0 0 = 2 := by decide

/-! ## Witnesses: for each statement with hypotheses, states and operands that meet them, at the boundaries -/

/-- A state with TYPE and TLEN. -/
def packState (t l : Word) : State := { State.reset with frameType := t, tlen := l }

/-- A state with TYPE, ITEM and IN_LEN. -/
def encodeState (t c n : Word) : State := { State.reset with frameType := t, item := c, inLen := n }

/-- A state with WIDTH, SOFF, SLEN and IN_LEN. -/
def sampleState (w o l n : Word) : State := { State.reset with width := w, soff := o, slen := l, inLen := n }

/-- A state with one byte of IN valid, the byte 1, and a cursor armed on it at width 8. -/
def armedState1 : State := { loaded [1] with su := ⟨0x00080101, 0, 1, 0, 0⟩ }

/-- A state with one access pending. -/
def pending (x : HostAccess) : State := { State.reset with host := [x] }

theorem witness_IllegalCommandRaisesOnly :
    (0x100#32).toNat / 256 ≠ 0 ∧ 8 ≤ (0x08#32).toNat % 256 ∧ 8 ≤ (0xFF#32).toNat % 256 := by decide

theorem witness_HeaderPackResults :
    7 < (packState 8 0).frameType.toNat
      ∧ ((packState 7 0xFFFFFFFF).frameType.toNat ≤ 7 ∧ (packState 7 0xFFFFFFFF).tlen.toInt < 0)
      ∧ ((packState 7 0).frameType.toNat ≤ 7 ∧ 0 ≤ (packState 7 0).tlen.toInt ∧ (packState 7 0).tlen.toInt ≤ 8191)
      ∧ ((packState 0 8191).tlen.toInt = 8191)
      ∧ (4 ≤ (packState 4 8194).frameType.toNat ∧ (packState 4 8194).tlen.toInt = 8194)
      ∧ (8191 < (packState 3 8194).tlen.toInt ∧ ¬ 4 ≤ (packState 3 8194).frameType.toNat)
      ∧ (8191 < (packState 7 8193).tlen.toInt ∧ (packState 7 8193).tlen.toInt ≠ 8194) := by decide

theorem witness_HeaderUnpackResults : 0xFFFF < (0x10000#32).toNat ∧ (0xFFFF#32).toNat ≤ 0xFFFF := by decide

theorem witness_ControlEncodeResults :
    3 < (encodeState 4 0 0).frameType.toNat
      ∧ ((encodeState 3 1 0).frameType.toNat ≤ 3 ∧ (encodeState 3 1 0).item.toNat ∉ itemNumbers)
      ∧ ((encodeState 3 0xB8 8188).item.toNat ∈ itemNumbers ∧ 8191 < 4 + (encodeState 3 0xB8 8188).inLen.toNat)
      ∧ ((encodeState 0 0 8187).item.toNat ∈ itemNumbers ∧ 4 + (encodeState 0 0 8187).inLen.toNat ≤ 8191) := by decide

theorem witness_DataEncodeResults :
    ((encodeState 3 0 0).frameType.toNat < 4 ∧ 7 < (encodeState 8 0 0).frameType.toNat)
      ∧ ((encodeState 5 0 1).frameType.toNat = 5 ∧ (encodeState 5 0 1).inLen.toNat < 2)
      ∧ (8191 < 2 + (encodeState 4 0 8191).inLen.toNat ∧ 2 + (encodeState 4 0 8191).inLen.toNat ≠ 8194)
      ∧ ((encodeState 4 0 2).frameType.toNat = 4 ∧ ¬ (encodeState 4 0 2).inLen.toNat < 2)
      ∧ ((encodeState 6 0 0).frameType.toNat = 6 ∧ 2 + (encodeState 6 0 0).inLen.toNat ≤ 8191)
      ∧ 2 + (encodeState 7 0 8192).inLen.toNat = 8194 := by decide

theorem witness_DecodeResults :
    (loaded [0x02]).inLen.toNat < 2
      ∧ ((loaded [0x03, 0x00]).inLen.toNat ≠ declaredLength (inHalf (loaded [0x03, 0x00]) 0))
      ∧ (3 = declaredLength (inHalf (loaded [0x03, 0xA0, 0]) 0) ∧ typeNumber (inHalf (loaded [0x03, 0xA0, 0]) 0) = 5)
      ∧ (4 = declaredLength (inHalf (loaded [4, 0x80, 1, 0]) 0) ∧ typeNumber (inHalf (loaded [4, 0x80, 1, 0]) 0) = 4
        ∧ (inHalf (loaded [4, 0x80, 1, 0]) 2).toNat ∉ itemNumbers)
      ∧ (4 = declaredLength (inHalf (loaded [4, 0, 0xB8, 0]) 0) ∧ (inHalf (loaded [4, 0, 0xB8, 0]) 2).toNat ∈ itemNumbers)
      ∧ (4 = declaredLength (inHalf (loaded [4, 0xA0, 1, 0]) 0) ∧ typeNumber (inHalf (loaded [4, 0xA0, 1, 0]) 0) = 5)
      ∧ (2 = declaredLength (inHalf (loaded [2, 0xC0]) 0) ∧ typeNumber (inHalf (loaded [2, 0xC0]) 0) = 6) := by decide

theorem witness_SampleStartResults :
    ((sampleState 0 0 0 0).width.toNat < 1 ∧ 32 < (sampleState 33 0 0 0).width.toNat)
      ∧ (sampleState 1 1 1 1).inLen.toNat < (sampleState 1 1 1 1).soff.toNat + (sampleState 1 1 1 1).slen.toNat
      ∧ (sampleState 32 1 1 2).soff.toNat + (sampleState 32 1 1 2).slen.toNat ≤ (sampleState 32 1 1 2).inLen.toNat := by
  decide

theorem witness_SampleNextResults :
    State.reset.su.state.toNat % 2 = 0
      ∧ (armedState1.su.state.toNat % 2 = 1 ∧ armedState1.su.pos ≠ armedState1.su.count)
      ∧ ((after .smpNext armedState1).su.state.toNat % 2 = 1
        ∧ (after .smpNext armedState1).su.pos = (after .smpNext armedState1).su.count) := by decide

/-- A raising command of each group: an encoder, the decoder, SMP.START, SMP.NEXT. -/
theorem witness_RaisingLeavesOnlyTheListedEffects :
    (Instr.encCtrl.domain = .command ∧ Instr.decode.domain = .command ∧ Instr.smpStart.domain = .command
        ∧ Instr.smpNext.domain = .command)
      ∧ (exec .encCtrl (encodeState 8 1 0) = .next (after .encCtrl (encodeState 8 1 0))
        ∧ (after .encCtrl (encodeState 8 1 0)).status = 7)
      ∧ (exec .decode (encodeState 8 1 0) = .next (after .decode (encodeState 8 1 0))
        ∧ (after .decode (encodeState 8 1 0)).status = 1)
      ∧ (exec .smpStart (encodeState 8 1 0) = .next (after .smpStart (encodeState 8 1 0))
        ∧ (after .smpStart (encodeState 8 1 0)).status = 5)
      ∧ (exec .smpNext (encodeState 8 1 0) = .next (after .smpNext (encodeState 8 1 0))
        ∧ (after .smpNext (encodeState 8 1 0)).status = 9) :=
  ⟨by decide, ⟨rfl, by decide⟩, ⟨rfl, by decide⟩, ⟨rfl, by decide⟩, ⟨rfl, by decide⟩⟩

theorem witness_CommandsWriteOnlyTheirGroups :
    inBase < outBase ∧ Instr.decode ≠ .encCtrl ∧ Instr.decode ≠ .encData ∧ Instr.decode ≠ .smpStart
      ∧ Instr.decode ≠ .smpNext ∧ ∃ v, Instr.illegal 8 = .illegal v := by
  refine ⟨by decide, by decide, by decide, by decide, by decide, 8, rfl⟩

theorem witness_CommandsAreIdempotent :
    Instr.encCtrl ≠ .smpNext ∧ (loaded [1, 2]).mem.wf
      ∧ exec .encCtrl (loaded [1, 2]) = .next (after .encCtrl (loaded [1, 2])) := ⟨by decide, by decide, rfl⟩

/-- Two memories that differ at IN[1], with one byte of IN valid and the cursor armed on it. -/
theorem witness_CommandsIgnoreBytesBeyondTheValidLength :
    CursorGood armedState1
      ∧ (∀ j, j < armedState1.inLen.toNat →
        ({ armedState1 with mem := [(0x10000, 1), (0x10001, 9)] } : State).inByte j = armedState1.inByte j)
      ∧ exec .smpNext armedState1 = .next (after .smpNext armedState1)
      ∧ (exec .smpNext { armedState1 with mem := [(0x10000, 1), (0x10001, 9)] }
        = .next (after .smpNext { armedState1 with mem := [(0x10000, 1), (0x10001, 9)] })) := by
  exact ⟨⟨by decide, by decide, by decide, by decide, by decide, by decide, by decide⟩, by decide, rfl, rfl⟩

theorem witness_ItemFramesDecode :
    (Instr.dataItem0 4, 4) ∈ [(Instr.setControlItem 4, 0), (.currentControlItem 4, 1), (.controlItemRange 4, 2),
        (.ack 4, 3), (.dataItem0 4, 4)]
      ∧ (loaded [0, 0, 0xB8, 0]).inLen.toNat = (4 : LengthField).toNat
      ∧ (inHalf (loaded [0, 0, 0xB8, 0]) 2).toNat ∈ itemNumbers
      ∧ ({ loaded [0, 0, 0xB8, 0] with inLen := 8194 } : State).inLen.toNat = 8194 := by decide

theorem witness_SequenceFrameDecodes :
    (encodeState 0 0 4).inLen.toNat = (4 : LengthField).toNat ∧ (encodeState 0 0 8194).inLen.toNat = 8194
      ∧ (0 : LengthField).toNat = 0 := by decide

theorem witness_BareFramesDecode :
    (encodeState 0 0 2).inLen.toNat = (2 : LengthField).toNat
      ∧ (Instr.dataItem3 2, 7) ∈ [(Instr.dataItem2 2, 6), (.dataItem3 2, 7)] := by decide

theorem witness_ItemCodesDecode :
    (Instr.rfFilter, 0x0044) ∈ [(Instr.itemNone, 0x0000), (.receiverState, 0x0018), (.receiverFrequency, 0x0020),
        (.rfFilter, 0x0044), (.adModes, 0x008A), (.iqOutputDataSampleRate, 0x00B8)]
      ∧ (loaded [4, 0x80, 0, 0]).inLen.toNat = declaredLength (inHalf (loaded [4, 0x80, 0, 0]) 0)
      ∧ typeNumber (inHalf (loaded [4, 0x80, 0, 0]) 0) ≤ 4 := by decide

theorem witness_DecodeRunsTheHeaderAndTheItem :
    decodeItem (inHalf (loaded [4, 0, 0xB8, 0]) 2) = some .iqOutputDataSampleRate := by decide

theorem witness_DecodeOfEncode : (Instr.illegal 8).wellFormed = true ∧ (Instr.ack 8191).wellFormed = true := by decide

theorem witness_EncodeOfDecode : decodeBytes .header [0x04, 0x60, 0x18] = .ok (.ack 4, [0x18]) := by rfl

theorem witness_HeaderRoundTrips : 1 ≤ 8191 ∧ 8191 ≤ 8191 ∧ 4 ≤ (4 : FrameType).toNat := by decide

/-- A frame of each encoder that completes. -/
theorem witness_HeaderLengthIsTheFrameLength :
    exec .encCtrl (loaded [1]) = .next (after .encCtrl (loaded [1])) ∧ (after .encCtrl (loaded [1])).status = 0
      ∧ exec .encData { loaded [1] with frameType := 6 } = .next (after .encData { loaded [1] with frameType := 6 })
      ∧ (after .encData { loaded [1] with frameType := 6 }).status = 0 := ⟨rfl, by decide, rfl, by decide⟩

theorem witness_EncodedFrameSizes :
    (after .encCtrl (loaded [])).status = 0 ∧ (after .encCtrl (loaded [])).outLen = 4
      ∧ (after .encData { loaded [] with frameType := 7 }).status = 0
      ∧ (after .encData { loaded [] with frameType := 7 }).outLen = 2
      ∧ (after .encData { loaded [0, 0] with frameType := 5 }).outLen = 4 := by decide

/-- Two states that agree on TYPE, ITEM, IN_LEN and the valid byte of IN, and on nothing else. -/
theorem witness_EncodersDependOnTheirOperandsOnly :
    ({ loaded [1] with tlen := 9, mem := [(0x10000, 1), (0x10001, 9)] } : State).frameType = (loaded [1]).frameType
      ∧ ({ loaded [1] with tlen := 9, mem := [(0x10000, 1), (0x10001, 9)] } : State).item = (loaded [1]).item
      ∧ ({ loaded [1] with tlen := 9, mem := [(0x10000, 1), (0x10001, 9)] } : State).inLen = (loaded [1]).inLen
      ∧ (∀ j, j < (loaded [1]).inLen.toNat →
        ({ loaded [1] with tlen := 9, mem := [(0x10000, 1), (0x10001, 9)] } : State).inByte j = (loaded [1]).inByte j)
      ∧ exec .encCtrl (loaded [1]) = .next (after .encCtrl (loaded [1]))
      ∧ (exec .encCtrl { loaded [1] with tlen := 9, mem := [(0x10000, 1), (0x10001, 9)] }
        = .next (after .encCtrl { loaded [1] with tlen := 9, mem := [(0x10000, 1), (0x10001, 9)] })) :=
  ⟨rfl, rfl, rfl, by decide, rfl, rfl⟩

/-- An encoded frame and a state that holds it in IN. -/
theorem witness_ControlFramesRoundTrip :
    exec .encCtrl (loaded [1]) = .next (after .encCtrl (loaded [1])) ∧ (after .encCtrl (loaded [1])).status = 0
      ∧ (loaded [5, 0, 0, 0, 1]).inLen = (after .encCtrl (loaded [1])).outLen
      ∧ ∀ i, i < (after .encCtrl (loaded [1])).outLen.toNat →
        (loaded [5, 0, 0, 0, 1]).inByte i = (after .encCtrl (loaded [1])).outByte i :=
  ⟨rfl, by decide, by decide, by decide⟩

/-- A state whose ENC.DATA makes a frame of type t over a two-byte params operand. -/
def dataState (t : Word) (bs : List Byte) : State := { loaded bs with frameType := t }

/-- The copies of a DataItem0 frame with a known and an unknown code, a DataItem1 and a DataItem3 frame. -/
theorem witness_DataFramesRoundTrip :
    (exec .encData (dataState 4 [0xB8, 0]) = .next (after .encData (dataState 4 [0xB8, 0]))
      ∧ (after .encData (dataState 4 [0xB8, 0])).status = 0
      ∧ (loaded [4, 0x80, 0xB8, 0]).inLen = (after .encData (dataState 4 [0xB8, 0])).outLen
      ∧ ∀ i, i < 4 → (loaded [4, 0x80, 0xB8, 0]).inByte i = (after .encData (dataState 4 [0xB8, 0])).outByte i)
    ∧ (exec .encData (dataState 4 [1, 0]) = .next (after .encData (dataState 4 [1, 0]))
      ∧ (after .encData (dataState 4 [1, 0])).status = 0
      ∧ (loaded [4, 0x80, 1, 0]).inLen = (after .encData (dataState 4 [1, 0])).outLen
      ∧ (∀ i, i < 4 → (loaded [4, 0x80, 1, 0]).inByte i = (after .encData (dataState 4 [1, 0])).outByte i)
      ∧ (inHalf (dataState 4 [1, 0]) 0).toNat ∉ itemNumbers)
    ∧ (exec .encData (dataState 5 [1, 0]) = .next (after .encData (dataState 5 [1, 0]))
      ∧ (after .encData (dataState 5 [1, 0])).status = 0
      ∧ (loaded [4, 0xA0, 1, 0]).inLen = (after .encData (dataState 5 [1, 0])).outLen
      ∧ ∀ i, i < 4 → (loaded [4, 0xA0, 1, 0]).inByte i = (after .encData (dataState 5 [1, 0])).outByte i)
    ∧ (exec .encData (dataState 7 []) = .next (after .encData (dataState 7 []))
      ∧ (after .encData (dataState 7 [])).status = 0
      ∧ (loaded [2, 0xE0]).inLen = (after .encData (dataState 7 [])).outLen
      ∧ ∀ i, i < 2 → (loaded [2, 0xE0]).inByte i = (after .encData (dataState 7 [])).outByte i) :=
  ⟨⟨rfl, by decide, by decide, by decide⟩, ⟨rfl, by decide, by decide, by decide, by decide⟩,
    ⟨rfl, by decide, by decide, by decide⟩, ⟨rfl, by decide, by decide, by decide⟩⟩

theorem witness_DecodeIsTheFunctionOnTheBuffer :
    decodeBuffer ((loaded [2, 0xC0]).inBytes 0 2) = .ok ⟨.dataBare, 6, 0, 0, 2, 0xC002, 2, false⟩
      ∧ decodeBuffer ((loaded [2]).inBytes 0 1) = .error .empty := ⟨rfl, rfl⟩

/-- The shortest frame, whose loss of a byte is EMPTY, and a longer one. -/
theorem witness_LengthMismatchIsAlwaysCaught :
    decodeBuffer [2, 0xC0] = .ok ⟨.dataBare, 6, 0, 0, 2, 0xC002, 2, false⟩
      ∧ decodeBuffer [3, 0xC0, 7] = .ok ⟨.dataBare, 6, 0, 0, 2, 0xC003, 3, false⟩ := ⟨rfl, rfl⟩

theorem witness_UnknownItemCodesAreAlwaysCaught :
    typeNumber (le16 0x04 0x80) ≤ 4 ∧ declaredLength (le16 0x04 0x80) = 4 + ([] : List Byte).length
      ∧ (le16 0x01 0x00).toNat ∉ itemNumbers := by decide

theorem witness_LaneIsTheLittleEndianSum :
    1 ≤ 32 ∧ 32 ≤ 32 ∧ 1 < [1, 2, 3, 4, 5, 6, 7, 8].length / ((32 + 7) / 8) ∧ 0 < [1].length / ((1 + 7) / 8) := by decide

/-- One complete lane of each size; the last one carries its top bit. -/
theorem witness_SampleValueRanges :
    samples 8 [0xFF] = .ok [255] ∧ samples 9 [0xFF, 0xFF] = .ok [65535]
      ∧ samples 24 [0xFF, 0xFF, 0xFF] = .ok [16777215] ∧ samples 32 [0, 0, 0, 0x80] = .ok [-2147483648] :=
  ⟨rfl, rfl, rfl, rfl⟩

theorem witness_SamplesAreTheCompleteLanes : samples 0 [1] = .error .invalidSampleWidth ∧ samples 33 [1] = .error .invalidSampleWidth
    ∧ ∃ l, samples 1 [1] = .ok l ∧ 0 < l.length := ⟨rfl, rfl, [1], rfl, by decide⟩

theorem witness_EqualLaneSizesGiveEqualSamples : 1 ≤ 25 ∧ 32 ≤ 32 ∧ (25 + 7) / 8 = (32 + 7) / 8 := by decide

/-- A two-byte sequence of one-byte lanes, before SMP.START. -/
def cursorState : State := { loaded [7, 9] with width := 8, slen := 2 }

/-- Between: a SMP.NEXT as a write to CMD, a read of STATUS and a write to WIDTH. -/
def quietEvents : List Event :=
  [.access (.write 4 0x00000 7), .access (.read 4 0x00004), .access (.write 4 0x00018 33)]

/-- The state after those events. -/
def quietState : State :=
  { after .smpNext { after .smpStart cursorState with host := [] } with width := 33 }

theorem quietEvents_keepInput : keepsInput quietEvents := by
  intro x hx
  simp only [quietEvents, List.mem_cons, List.not_mem_nil, or_false, Event.access.injEq] at hx
  rcases hx with rfl | rfl | rfl <;> simp [writesInput, target, Reg.offset]

/-- After one SMP.NEXT a lane is left; after two none is. -/
theorem witness_CursorDeliversTheSequence :
    cursorState.inLen.toNat ≤ Config.inCap
      ∧ exec .smpStart cursorState = .next (after .smpStart cursorState) ∧ (after .smpStart cursorState).status = 0
      ∧ keepsInput quietEvents ∧ Instr.smpStart ∉ quietEvents.filterMap Event.instr
      ∧ (quietEvents.filterMap Event.instr).count .smpNext < 2
      ∧ happenAll (after .smpStart cursorState) quietEvents = .next quietState
      ∧ ¬ ([Event.run .smpNext, .run .smpNext].filterMap Event.instr).count .smpNext < 2
      ∧ happenAll (after .smpStart cursorState) [.run .smpNext, .run .smpNext]
        = .next (after .smpNext (after .smpNext (after .smpStart cursorState))) := by
  have h := Laws.inCap_bounds
  have h2 : cursorState.inLen.toNat = 2 := rfl
  exact ⟨by omega, rfl, by decide, quietEvents_keepInput, by decide, by decide, rfl, by decide, rfl⟩

/-- Interrupted after one sample, with WIDTH written to another value and back. -/
theorem witness_SampleStartRestarts :
    cursorState.inLen.toNat ≤ Config.inCap
      ∧ exec .smpStart cursorState = .next (after .smpStart cursorState)
      ∧ keepsInput (quietEvents ++ [.access (.write 4 0x00018 8)])
      ∧ happenAll (after .smpStart cursorState) (quietEvents ++ [.access (.write 4 0x00018 8)])
        = .next { quietState with width := 8 }
      ∧ (8 : Word) = cursorState.width ∧ quietState.soff = cursorState.soff ∧ quietState.slen = cursorState.slen
      ∧ exec .smpStart { quietState with width := 8 } = .next (after .smpStart { quietState with width := 8 }) := by
  have h := Laws.inCap_bounds
  have h2 : cursorState.inLen.toNat = 2 := rfl
  refine ⟨by omega, rfl, ?_, rfl, rfl, rfl, rfl, rfl⟩
  intro x hx
  rcases List.mem_append.1 hx with hx | hx
  · exact quietEvents_keepInput x hx
  · simp only [List.mem_cons, List.not_mem_nil, or_false, Event.access.injEq] at hx
    subst hx
    simp [writesInput, target, Reg.offset]

/-! ## Witnesses for the host port -/

theorem witness_StepRunsTheDecodedCommand :
    (pending (.write 4 0x00000 5)).host = .write 4 0x00000 5 :: [] ∧ State.reset.host = [] := ⟨rfl, rfl⟩

theorem witness_StepRunsEncodedCommands :
    Instr.smpNext.domain = .command ∧ Instr.smpNext.wellFormed = true ∧ (Instr.illegal 8).wellFormed = true
      ∧ (pending (.write 4 0x00000 (commandWord .smpNext))).host = [.write 4 0x00000 (commandWord .smpNext)] := by decide

theorem witness_PlacedWordsRunNext :
    decodeTableWord 16 (0x7D50#16).toNat = some (.ack 7504) ∧ decodeTableWord 16 (0x0018#16).toNat = some .receiverState
      ∧ decodeTableWord 16 (0x0000#16).toNat = some .itemNone := by decide

theorem witness_OperandRegistersStoreAllBits :
    Reg.slen ∈ [Reg.frameType, .item, .tlen, .hdr, .width, .soff, .slen]
      ∧ (pending (.write 4 0x00020 0xFFFFFFFF)).host = [.write 4 (BitVec.ofNat 18 Reg.slen.offset) 0xFFFFFFFF] := by
  decide

theorem witness_InLenWriteFitsOrIsIgnored :
    (pending (.write 4 0x00024 65536)).host = [.write 4 0x00024 65536] ∧ ¬ (65536#32).toNat ≤ Config.inCap
      ∧ (8195#32).toNat ≤ Config.inCap := by
  have h := Laws.inCap_bounds
  exact ⟨rfl, by simp only [BitVec.toNat_ofNat]; omega, by simp only [BitVec.toNat_ofNat]; omega⟩

theorem witness_ReadOnlyWritesAreIgnored :
    0x28 % 4 = 0 ∧ 0xFC % 4 = 0 ∧ 0x28 ≤ 0x28 ∧ 0xFC ≤ 0xFC
      ∧ (pending (.write 4 0x000FC 5)).host = [.write 4 (BitVec.ofNat 18 0xFC) 5] := by decide

theorem witness_RegisterReadsHaveNoSideEffect :
    0xFC < 0x100 ∧ 0xFC % 4 = 0 ∧ 0x6C ≤ 0xFC ∧ Reg.inCap.offset = 0x68
      ∧ (pending (.read 4 0x000FC)).host = [.read 4 (BitVec.ofNat 18 0xFC)] := by decide

/-- The first and the last byte of IN. -/
theorem witness_InByteWriteStoresAndDisarms :
    0 < Config.inCap ∧ Config.inCap - 1 < Config.inCap
      ∧ (pending (.write 1 0x10000 7)).host = [.write 1 (BitVec.ofNat 18 (inBase + 0)) 7] := by
  have h := Laws.inCap_bounds
  exact ⟨by omega, by omega, rfl⟩

/-- A read of a valid byte and one just past the valid length. -/
theorem witness_InByteReads :
    0 < Config.inCap ∧ 0 < (loaded [1]).inLen.toNat ∧ 1 < Config.inCap ∧ (loaded [1]).inLen.toNat ≤ 1
      ∧ (pending (.read 1 0x10001)).host = [.read 1 (BitVec.ofNat 18 (inBase + 1))] := by
  have h := Laws.inCap_bounds
  exact ⟨by omega, by decide, by omega, by decide, rfl⟩

theorem witness_OutByteAccesses :
    8193 < 8194 ∧ 8193 < ({ State.reset with outLen := 8194 } : State).outLen.toNat ∧ State.reset.outLen.toNat ≤ 0
      ∧ (pending (.read 1 0x22001)).host = [.read 1 (BitVec.ofNat 18 (outBase + 8193))]
      ∧ (pending (.write 1 0x22001 5)).host = [.write 1 (BitVec.ofNat 18 (outBase + 8193)) 5] := by decide

/-- The first unmapped address, the last before IN, the last before OUT, the first after OUT, and a misaligned 32-bit
access (log 11). -/
theorem witness_UnmappedAccesses :
    0x100 ≤ (0x100#18).toNat ∧ (0x0FFFF#18).toNat + 1 ≤ 0x10000
      ∧ (0x10000 + Config.inCap ≤ (0x1FFFF#18).toNat ∧ (0x1FFFF#18).toNat + 1 ≤ 0x20000) ∧ 0x22002 ≤ (0x22002#18).toNat
      ∧ (pending (.write 4 0x22002 5)).host = [.write 4 0x22002 5] ∧ (0x22002#18).toNat % 4 ≠ 0
      ∧ (pending (.read 4 0x00101)).host = [.read 4 0x00101] ∧ 0x100 ≤ (0x00101#18).toNat
      ∧ (0x00101#18).toNat + 4 ≤ 0x10000 ∧ (0x00101#18).toNat % 4 ≠ 0 := by
  have h := Laws.inCap_bounds
  exact ⟨by decide, by decide, ⟨by simp only [BitVec.toNat_ofNat]; omega, by decide⟩, by decide, rfl, by decide, rfl,
    by decide, by decide, by decide⟩

/-- A misaligned register access, and wide accesses at the ends of the buffers. -/
theorem witness_UnsupportedShapesAreRefused :
    ((0x0FF#18).toNat < 0x100 ∧ (0x0FF#18).toNat % 4 ≠ 0) ∧ ((0x000#18).toNat < 0x100 ∧ 1 ≠ 4)
      ∧ ((0x10000#18).toNat < 0x10000 + Config.inCap ∧ 2 ≠ 1) ∧ ((0x22001#18).toNat < 0x22002 ∧ 4 ≠ 1)
      ∧ (pending (.read 4 0x22001)).host = [.read 4 0x22001] := by
  have h := Laws.inCap_bounds
  exact ⟨by decide, by decide, ⟨by simp only [BitVec.toNat_ofNat]; omega, by decide⟩, by decide, rfl⟩

theorem witness_ResetInputClearsEveryRegister : (pending .reset).host = [.reset] ∧ Reg.rEsc ≠ .id ∧ Reg.rEsc ≠ .inCap := by decide

theorem witness_HostAccessesLeaveStatus :
    (pending (.read 4 0x64)).host = [.read 4 0x64] ∧ commandOf (.read 4 0x64) = none ∧ HostAccess.read 4 0x64 ≠ .reset
      ∧ step (pending (.read 4 0x64)) = .next (stepped (pending (.read 4 0x64))) := ⟨rfl, by decide, by decide, rfl⟩

theorem witness_LoadFillsIn : ([] : List Byte).length ≤ Config.inCap ∧ (List.replicate 8195 (0 : Byte)).length ≤ Config.inCap := by
  have h := Laws.inCap_bounds
  exact ⟨by simp, by rw [List.length_replicate]; omega⟩

/-! ## Witnesses for the invariants: a state that meets all of them and steps -/

/-- An encoded frame in OUT, a cursor armed on IN, and a SMP.NEXT pending. -/
def goodState : State :=
  { after .smpStart (after .encCtrl cursorState) with host := [.write 4 0x00000 7] }

theorem witness_memoryGood : MemoryGood goodState := by
  have h := Laws.inCap_bounds
  refine ⟨by decide, ?_⟩
  intro c hc
  have hc' : c ∈ [((0x10000 : Nat), (7 : Byte)), (0x10001, 9), (0x20000, 6), (0x20001, 0), (0x20002, 0), (0x20003, 0),
      (0x20004, 7), (0x20005, 9)] := hc
  simp only [List.mem_cons, List.not_mem_nil, or_false] at hc'
  simp only [inBase, outBase, Config.outCap]
  rcases hc' with rfl | rfl | rfl | rfl | rfl | rfl | rfl | rfl <;> simp only <;> omega

theorem witness_lengthsGood : LengthsGood goodState := by
  have h := Laws.inCap_bounds
  have h2 : goodState.inLen.toNat = 2 := by rfl
  exact ⟨by omega, by decide, by decide⟩

theorem witness_resultsGood : ResultsGood goodState.res :=
  ⟨by decide, by decide, by decide, by decide, by decide, by decide, by decide, by decide, by decide⟩

theorem witness_statusGood : StatusGood goodState := ⟨.ok, by decide⟩

theorem witness_cursorGood : CursorGood goodState :=
  ⟨by decide, by decide, by decide, by decide, by decide, by decide, by decide⟩

theorem witness_goodState_steps : step goodState = .next (stepped goodState) ∧ (stepped goodState).su.sample = 7 :=
  ⟨rfl, by decide⟩

/-- A memory that agrees with the good state's on the one byte of the lane and nowhere else. -/
theorem witness_SampleNextReadsValidBytesOnly :
    State.Good goodState ∧ goodState.su.armed = true ∧ goodState.su.pos ≠ goodState.su.count
      ∧ ∀ j, j < goodState.su.bps →
        ({ goodState with mem := [(0x10000, 7), (0x10001, 8)] } : State).inByte (cursorBase goodState + j)
          = goodState.inByte (cursorBase goodState + j) :=
  ⟨⟨witness_memoryGood, witness_statusGood, witness_lengthsGood, witness_resultsGood, witness_cursorGood⟩,
    by decide, by decide, by decide⟩

theorem witness_StepKeepsMemoryGood : MemoryGood goodState ∧ step goodState = .next (stepped goodState) :=
  ⟨witness_memoryGood, rfl⟩

theorem witness_StepKeepsLengthsGood : LengthsGood goodState ∧ step goodState = .next (stepped goodState) :=
  ⟨witness_lengthsGood, rfl⟩

theorem witness_StepKeepsResultsAndStatusGood :
    ResultsGood goodState.res ∧ StatusGood goodState ∧ step goodState = .next (stepped goodState) :=
  ⟨witness_resultsGood, witness_statusGood, rfl⟩

theorem witness_StepKeepsCursorGood :
    LengthsGood goodState ∧ CursorGood goodState ∧ step goodState = .next (stepped goodState) :=
  ⟨witness_lengthsGood, witness_cursorGood, rfl⟩

/-- A frame of six bytes to copy. -/
theorem witness_LoopbackCopiesOutToIn : LengthsGood goodState ∧ goodState.outLen = 6 :=
  ⟨witness_lengthsGood, by decide⟩

end Sys2Proof.Tests
end

section
/-! SUPPORT. What each command can do, finer than `exec_cases`: the outcomes of an encoder, of SMP.START and of
SMP.NEXT, and what every instruction leaves in RES and STATUS. -/

namespace Sys2Proof.StateProofs

open Sys2Proof.Machine Sys2Proof.Laws

/-! ## The encoders -/

/-- A frame that an encoder writes holds a header and fits OUT. -/
def FitsOut (f : EncodedFrame) : Prop := 2 ≤ f.bytes.length ∧ f.bytes.length ≤ Config.outCap

theorem encodeControl_fitsOut (t c : Word) (p : List Byte) (f : EncodedFrame) (h : encodeControl t c p = .ok f) :
    FitsOut f := by
  obtain ⟨hlo, hhi⟩ := encodeControl_length t c p f h
  exact ⟨by omega, Nat.le_trans hhi (by decide)⟩

theorem encodeData_fitsOut (t : Word) (p : List Byte) (f : EncodedFrame) (h : encodeData t p = .ok f) :
    FitsOut f := by
  obtain ⟨hlen, hmax⟩ := encodeData_length t p f h
  exact ⟨by omega, by rcases hmax with h | h <;> simp only [Config.outCap] <;> omega⟩

/-- An encoder raises (41_encode.md R152, R154), or ends with a frame that fits OUT. -/
def EncoderOutcome (s t : State) : Prop :=
  (∃ e : Status, t = afterEncodeRaise e.code s) ∨ ∃ f, FitsOut f ∧ t = finishEncode (.ok f) s

theorem finishEncode_outcome (r : Except Status EncodedFrame) (s : State) (h : ∀ f, r = .ok f → FitsOut f) :
    EncoderOutcome s (finishEncode r s) := by
  cases r with
  | error e => exact .inl ⟨e, finishEncode_error e s⟩
  | ok f => exact .inr ⟨f, h f rfl, rfl⟩

/-- `exec_cases` with the encoders' two cases made one. -/
theorem exec_outcome (i : Instr) (s t : State) (h : exec i s = .next t) :
    (∃ r c, t = { s with res := r, status := c }) ∨
    (∃ u c, (i = .smpStart ∨ i = .smpNext) ∧ t = { s with su := u, status := c }) ∨
    ((i = .encCtrl ∨ i = .encData) ∧ EncoderOutcome s t) := by
  rcases exec_cases i s t h with h | h | ⟨hi, rfl⟩ | ⟨hi, rfl⟩
  · exact .inl h
  · exact .inr (.inl h)
  · exact .inr (.inr ⟨.inl hi, finishEncode_outcome _ s fun f => encodeControl_fitsOut _ _ _ f⟩)
  · exact .inr (.inr ⟨.inr hi, finishEncode_outcome _ s fun f => encodeData_fitsOut _ _ f⟩)

/-! ## The sample commands -/

/-- The cursor a successful SMP.START leaves (43_samples.md R198). -/
def startedCursor (s : State) : Cursor :=
  { state := armedState (bytesPerSample s.width.toNat) s.width
    off := s.soff
    count := BitVec.ofNat 32 (s.slen.toNat / bytesPerSample s.width.toNat)
    pos := 0
    sample := 0 }

/-- SMP.START raises with the cursor cleared, or starts over a legal width and a window within IN_LEN. -/
theorem smpStart_outcome (s t : State) (h : exec .smpStart s = .next t) :
    (∃ e : Status, t = afterStartRaise e.code s) ∨
    (1 ≤ s.width.toNat ∧ s.width.toNat ≤ 32 ∧ s.soff.toNat + s.slen.toNat ≤ s.inLen.toNat ∧
      t = { s with su := startedCursor s, status := 0 }) := by
  simp only [exec, execSmpStart] at h
  split at h
  · cases h
    exact .inl ⟨.invalidSampleWidth, rfl⟩
  · next hw =>
    obtain ⟨hlo, hhi⟩ := (validWidth_iff s.width.toNat).1 (by simpa using hw)
    split at h
    · cases h
      exact .inl ⟨.invalidArgument, rfl⟩
    · next hin =>
      cases h
      exact .inr ⟨hlo, hhi, by omega, rfl⟩

/-- SMP.NEXT changes STATUS alone, or delivers a lane of an armed cursor and steps over it (43_samples.md R199). -/
theorem smpNext_outcome (s t : State) (h : exec .smpNext s = .next t) :
    (∃ e : Status, t = s.complete e) ∨
    (s.su.armed = true ∧ s.su.pos ≠ s.su.count ∧
      ∃ x, t = { s with su := { s.su with sample := x, pos := s.su.pos + 1 }, status := 0 }) := by
  simp only [exec, execSmpNext] at h
  split at h
  · cases h
    exact .inl ⟨.notArmed, rfl⟩
  · next ha =>
    split at h
    · cases h
      exact .inl ⟨.sampleEnd, rfl⟩
    · next hp =>
      cases h
      exact .inr ⟨by simpa using ha, hp, _, rfl⟩

/-! ## RES and STATUS -/

theorem statusGood_complete (s : State) (c : Status) : StatusGood (s.complete c) := ⟨c, rfl⟩

theorem resultsGood_zero : ResultsGood ResultGroup.zero :=
  ⟨by decide, by decide, by decide, by decide, by decide, by decide, by decide, by decide, by decide⟩

theorem flagWord_zero_or_one (b : Bool) : flagWord b = 0 ∨ flagWord b = 1 := by
  cases b
  · exact .inl rfl
  · exact .inr rfl

/-- A narrower value in a register stays below its own bound. -/
theorem setWidth_register_lt {n : Nat} (w : BitVec n) : (w.setWidth 32 : Word).toNat < 2 ^ n := by
  rw [BitVec.toNat_setWidth]
  exact Nat.lt_of_le_of_lt (Nat.mod_le _ _) w.isLt

theorem frameKind_code_lt (t : FrameType) : (frameKind t).code.toNat < 4 := by
  revert t; decide

theorem declaredLength_le (w : Half) : declaredLength w ≤ Config.maxDataLen := by
  simp only [declaredLength, Config.maxDataLen]
  split <;> omega

/-- Cutting a number to a register does not raise it above its bound. -/
theorem ofNat_register_le {n m : Nat} (h : n ≤ m) : (BitVec.ofNat 32 n).toNat ≤ m := by
  rw [BitVec.toNat_ofNat]
  exact Nat.le_trans (Nat.mod_le _ _) h

theorem resultsGood_packedRes (p : PackedHeader) : ResultsGood (packedRes p) :=
  { resultsGood_zero with hdr := setWidth_register_lt p.word, esc := flagWord_zero_or_one p.esc }

theorem resultsGood_unpackedRes (w : Half) : ResultsGood (unpackedRes w) :=
  { resultsGood_zero with
    kind := frameKind_code_lt _
    frameType := setWidth_register_lt (headerType w)
    hdr := setWidth_register_lt w
    decLen := ofNat_register_le (declaredLength_eq w ▸ declaredLength_le w)
    esc := flagWord_zero_or_one _ }

/-- What a decoded frame reports: a body offset of 2 or 4, and the length it was checked against. -/
theorem decodeFrame_fields (n : Nat) (w sub : Half) (f : DecodedFrame) (h : decodeFrame n w sub = .ok f) :
    (f.off = 2 ∨ f.off = 4) ∧ n = declaredLength w ∧ f.decl = declaredLength w := by
  by_cases hn : n < 2
  · simp [decodeFrame_empty n w sub hn] at h
  by_cases hd : n = declaredLength w
  swap
  · simp [decodeFrame_mismatch n w sub (by omega) hd] at h
  by_cases hbare : 6 ≤ typeNumber w
  · rw [decodeFrame_bare n w sub (by omega) hd hbare] at h
    cases h
    exact ⟨.inl rfl, hd, rfl⟩
  by_cases hshort : n < 4
  · simp [decodeFrame_truncated n w sub (by omega) hd (by omega) hshort] at h
  by_cases hseq : typeNumber w = 5
  · rw [decodeFrame_seq n w sub (by omega) hd hseq] at h
    cases h
    exact ⟨.inr rfl, hd, rfl⟩
  by_cases hc : sub.toNat ∈ itemNumbers
  · rw [decodeFrame_item n w sub (by omega) hd (by omega) hc] at h
    cases h
    exact ⟨.inr rfl, hd, rfl⟩
  · simp [decodeFrame_unknown n w sub (by omega) hd (by omega) hc] at h

theorem resultsGood_decodedRes (n : Nat) (w sub : Half) (f : DecodedFrame) (h : decodeFrame n w sub = .ok f) :
    ResultsGood (decodedRes n f) := by
  obtain ⟨hoff, hn, hdecl⟩ := decodeFrame_fields n w sub f h
  have hmax : declaredLength w ≤ 8194 := declaredLength_le w
  exact
    { kind := by cases hk : f.kind <;> simp [decodedRes, hk, FrameKind.code]
      frameType := setWidth_register_lt f.frameType
      item := setWidth_register_lt f.item
      seq := setWidth_register_lt f.seq
      bodyOff := by rcases hoff with h | h <;> simp [decodedRes, h]
      bodyLen := ofNat_register_le (by omega)
      hdr := setWidth_register_lt f.hdr
      decLen := ofNat_register_le (hdecl ▸ declaredLength_le w)
      esc := flagWord_zero_or_one f.esc }

/-- A state whose RES and STATUS are within their fields and values. -/
def ResAndStatusGood (s : State) : Prop := ResultsGood s.res ∧ StatusGood s

/-- A command that has good results in RES ends well, whatever its completion code. -/
theorem resAndStatusGood_complete (s : State) (c : Status) (h : ResultsGood s.res) : ResAndStatusGood (s.complete c) :=
  ⟨h, statusGood_complete s c⟩

theorem finishPack_resAndStatusGood (r : Except Status PackedHeader) (s : State) :
    ResAndStatusGood (finishPack r s) := by
  cases r with
  | error e => exact resAndStatusGood_complete s.clearRes e resultsGood_zero
  | ok p => exact resAndStatusGood_complete { s.clearRes with res := packedRes p } .ok (resultsGood_packedRes p)

theorem decodeIn_resAndStatusGood (w sub : Half) (s : State) : ResAndStatusGood (decodeIn w sub s) := by
  unfold decodeIn
  cases h : decodeFrame s.inLen.toNat w sub with
  | error e => exact resAndStatusGood_complete s.clearRes e resultsGood_zero
  | ok f => exact ⟨resultsGood_decodedRes _ w sub f h, .ok, rfl⟩

theorem encoderOutcome_resAndStatusGood (s t : State) (h : EncoderOutcome s t) : ResAndStatusGood t := by
  obtain ⟨e, rfl⟩ | ⟨f, -, rfl⟩ := h
  · exact ⟨resultsGood_zero, e, rfl⟩
  · exact ⟨resultsGood_packedRes f.header, .ok, rfl⟩

/-- NOP, the illegal command and the sample commands do not write RES (10_state.md R48). -/
def LeavesRes : Instr → Prop
  | .nop | .illegal _ | .smpStart | .smpNext => True
  | _ => False

theorem exec_res_of_leavesRes (i : Instr) (s t : State) (hi : LeavesRes i) (h : exec i s = .next t) :
    t.res = s.res ∧ StatusGood t := by
  cases i
  case nop => cases h; exact ⟨rfl, .ok, rfl⟩
  case illegal => cases h; exact ⟨rfl, .illegalCommand, rfl⟩
  case smpStart =>
    obtain ⟨e, rfl⟩ | ⟨-, -, -, rfl⟩ := smpStart_outcome s t h
    · exact ⟨rfl, e, rfl⟩
    · exact ⟨rfl, .ok, rfl⟩
  case smpNext =>
    obtain ⟨e, rfl⟩ | ⟨-, -, x, rfl⟩ := smpNext_outcome s t h
    · exact ⟨rfl, e, rfl⟩
    · exact ⟨rfl, .ok, rfl⟩
  all_goals exact hi.elim

/-- Every other instruction writes RES and STATUS whole, whatever they held. -/
theorem exec_resAndStatusGood (i : Instr) (s t : State) (hi : ¬ LeavesRes i) (h : exec i s = .next t) :
    ResAndStatusGood t := by
  cases i
  case nop | illegal | smpStart | smpNext => exact absurd trivial hi
  case hdrPack => cases h; exact finishPack_resAndStatusGood _ s
  case hdrUnpack =>
    simp only [exec, execHdrUnpack] at h
    split at h <;> cases h
    · exact ⟨resultsGood_zero, .invalidArgument, rfl⟩
    · exact ⟨resultsGood_unpackedRes _, .ok, rfl⟩
  case encCtrl =>
    cases h
    exact encoderOutcome_resAndStatusGood s _ (finishEncode_outcome _ s fun f => encodeControl_fitsOut _ _ _ f)
  case encData =>
    cases h
    exact encoderOutcome_resAndStatusGood s _ (finishEncode_outcome _ s fun f => encodeData_fitsOut _ _ f)
  all_goals
    cases h
    exact decodeIn_resAndStatusGood _ _ s

/-- Every instruction ends in a next state. -/
theorem exec_total (i : Instr) (s : State) : ∃ t, exec i s = .next t := by
  cases i
  case hdrUnpack => simp only [exec, execHdrUnpack]; split <;> exact ⟨_, rfl⟩
  case smpStart =>
    simp only [exec, execSmpStart]
    split
    · exact ⟨_, rfl⟩
    · split <;> exact ⟨_, rfl⟩
  case smpNext =>
    simp only [exec, execSmpNext]
    split
    · exact ⟨_, rfl⟩
    · split <;> exact ⟨_, rfl⟩
  all_goals exact ⟨_, rfl⟩

end Sys2Proof.StateProofs
end

section
/-! SUPPORT. What a host access that runs no command can do, and the one rule by which a step keeps a predicate. -/

namespace Sys2Proof.StateProofs

open Sys2Proof.Machine Sys2Proof.Laws

/-- Only the operand registers, and the fields that hold what the host has read, may differ. -/
def DiffersInOperands (s t : State) : Prop :=
  ∃ a b c d e f g r n, t =
    { s with frameType := a, item := b, tlen := c, hdr := d, width := e, soff := f, slen := g, readData := r, draws := n }

/-- The effects of an access that runs no command: operand registers or a read; IN_LEN with the cursor disarmed; a byte
of IN with the cursor disarmed; or the reset input. -/
theorem busAccess_outcome (x : HostAccess) (s t : State) (h : busAccess x s = .next t) :
    DiffersInOperands s t ∨
    (∃ n : Word, t = { s with inLen := n, su := s.su.disarm } ∧ (n = s.inLen ∨ n.toNat ≤ Config.inCap)) ∨
    (∃ i b, i < Config.inCap ∧ t = writeIn i b s) ∨
    (x = .reset ∧ t = resetBlock s) := by
  rcases busAccess_next x s t h with ⟨w, a, rfl, _, rfl⟩ | ⟨w, a, v, rfl, _, rfl⟩ | hreset
  · obtain ⟨r, n, hread⟩ := busRead_eq a s
    exact .inl ⟨_, _, _, _, _, _, _, r, n, hread⟩
  · rcases busWrite_cases a v s with ⟨r, hr⟩ | hin | hnone
    · rcases writeReg_cases r v s with ⟨_, _, _, _, _, _, _, hop⟩ | hlen
      · exact .inl ⟨_, _, _, _, _, _, _, s.readData, s.draws, hr.trans hop⟩
      · exact .inr (.inl (hr ▸ hlen))
    · exact .inr (.inr (.inl hin))
    · exact .inl ⟨_, _, _, _, _, _, _, s.readData, s.draws, hnone⟩
  · exact .inr (.inr (.inr hreset))

/-- A predicate that the effects of commands and of host accesses keep, and that does not look at what the host asks
for next, is kept by every step. -/
theorem step_preserves (P : State → Prop)
    (pending : ∀ s w, P s → P { s with host := w })
    (command : ∀ i s t, P s → exec i s = .next t → P t)
    (operands : ∀ s t, DiffersInOperands s t → P s → P t)
    (lengthWrite : ∀ s (n : Word), (n = s.inLen ∨ n.toNat ≤ Config.inCap) → P s →
      P { s with inLen := n, su := s.su.disarm })
    (byteWrite : ∀ s i b, i < Config.inCap → P s → P (writeIn i b s))
    (reset : ∀ s, P (resetBlock s))
    (s t : State) (hs : P s) (h : step s = .next t) : P t := by
  rcases step_cases s t h with rfl | ⟨x, rest, -, ⟨i, -, hexec⟩ | ⟨-, haccess⟩⟩
  · exact hs
  · exact command i _ t (pending s rest hs) hexec
  · have hrest := pending s rest hs
    rcases busAccess_outcome x _ t haccess with hop | ⟨n, rfl, hn⟩ | ⟨i, b, hi, rfl⟩ | ⟨-, rfl⟩
    · exact operands _ t hop hrest
    · exact lengthWrite _ n hn hrest
    · exact byteWrite _ i b hi hrest
    · exact reset _

end Sys2Proof.StateProofs
end

section
/-! The lengths: IN_LEN within IN, OUT_LEN 0 or 2..8194, and OUT written below it. -/

namespace Sys2Proof.StateProofs

open Sys2Proof.Machine Sys2Proof.Laws

/-- Only IN_LEN, OUT_LEN and memory count. -/
theorem lengthsGood_congr (s t : State) (hin : t.inLen = s.inLen) (hout : t.outLen = s.outLen) (hmem : t.mem = s.mem)
    (h : LengthsGood s) : LengthsGood t :=
  ⟨hin ▸ h.inLen, hout ▸ h.outLen, by rw [hout, hmem]; exact h.outWritten⟩

theorem encoderOutcome_lengthsGood (s t : State) (ht : EncoderOutcome s t) (h : LengthsGood s) : LengthsGood t := by
  obtain ⟨e, rfl⟩ | ⟨f, ⟨hlo, hhi⟩, rfl⟩ := ht
  · exact ⟨h.inLen, .inl rfl, fun i hi => absurd hi (Nat.not_lt_zero i)⟩
  · have hlen : (finishEncode (.ok f) s).outLen.toNat = f.bytes.length := by
      rw [finishEncode_ok, BitVec.toNat_ofNat]
      exact Nat.mod_eq_of_lt (Nat.lt_of_le_of_lt hhi (by decide))
    refine ⟨h.inLen, .inr (by rw [hlen]; exact ⟨hlo, hhi⟩), fun i hi => ?_⟩
    rw [hlen] at hi
    simp [finishEncode_ok, get_setBytes_inside _ _ _ _ hi]

theorem exec_lengthsGood (i : Instr) (s t : State) (h : LengthsGood s) (ht : exec i s = .next t) : LengthsGood t := by
  rcases exec_outcome i s t ht with ⟨r, c, rfl⟩ | ⟨u, c, -, rfl⟩ | ⟨-, henc⟩
  · exact lengthsGood_congr s _ rfl rfl rfl h
  · exact lengthsGood_congr s _ rfl rfl rfl h
  · exact encoderOutcome_lengthsGood s t henc h

theorem lengthsGood_of_differsInOperands (s t : State) (ht : DiffersInOperands s t) (h : LengthsGood s) :
    LengthsGood t := by
  obtain ⟨_, _, _, _, _, _, _, _, _, rfl⟩ := ht
  exact lengthsGood_congr s _ rfl rfl rfl h

theorem writeInLen_lengthsGood (s : State) (n : Word) (hn : n = s.inLen ∨ n.toNat ≤ Config.inCap) (h : LengthsGood s) :
    LengthsGood { s with inLen := n, su := s.su.disarm } := by
  refine ⟨?_, h.outLen, h.outWritten⟩
  rcases hn with rfl | hn
  · exact h.inLen
  · exact hn

/-- No byte of IN is a byte of OUT (20_memory.md R61). -/
theorem inAddress_ne_outAddress (i j : Nat) (hi : i < Config.inCap) : outBase + j ≠ inBase + i := by
  have := inCap_bounds
  simp only [inBase, outBase]
  omega

theorem writeIn_lengthsGood (s : State) (i : Nat) (b : Byte) (hi : i < Config.inCap) (h : LengthsGood s) :
    LengthsGood (writeIn i b s) := by
  refine ⟨h.inLen, h.outLen, fun j hj => ?_⟩
  have hget : (writeIn i b s).mem.get (outBase + j) = s.mem.get (outBase + j) :=
    get_set_other s.mem _ _ b (inAddress_ne_outAddress i j hi)
  rw [hget]
  exact h.outWritten j hj

theorem resetBlock_lengthsGood (s : State) : LengthsGood (resetBlock s) :=
  ⟨Nat.zero_le _, .inl rfl, fun i hi => absurd hi (Nat.not_lt_zero i)⟩

/-- Settles O56: each effect of a step keeps the lengths; an encoder's frame is written where OUT_LEN says. -/
theorem stepKeepsLengthsGood : Obligations.StepKeepsLengthsGood :=
  step_preserves LengthsGood
    (pending := fun s _ => lengthsGood_congr s _ rfl rfl rfl)
    (command := exec_lengthsGood)
    (operands := lengthsGood_of_differsInOperands)
    (lengthWrite := writeInLen_lengthsGood)
    (byteWrite := writeIn_lengthsGood)
    (reset := resetBlock_lengthsGood)

end Sys2Proof.StateProofs
end

section
/-! The result registers and STATUS within their fields and values. -/

namespace Sys2Proof.StateProofs

open Sys2Proof.Machine Sys2Proof.Laws

/-- Only RES and STATUS count. -/
theorem resAndStatusGood_congr (s t : State) (hres : t.res = s.res) (hstatus : t.status = s.status)
    (h : ResAndStatusGood s) : ResAndStatusGood t := by
  obtain ⟨hr, c, hc⟩ := h
  exact ⟨hres ▸ hr, c, hstatus.trans hc⟩

theorem exec_keeps_resAndStatusGood (i : Instr) (s t : State) (h : ResAndStatusGood s) (ht : exec i s = .next t) :
    ResAndStatusGood t := by
  by_cases hi : LeavesRes i
  · obtain ⟨hres, hstatus⟩ := exec_res_of_leavesRes i s t hi ht
    exact ⟨hres ▸ h.1, hstatus⟩
  · exact exec_resAndStatusGood i s t hi ht

theorem resAndStatusGood_of_differsInOperands (s t : State) (ht : DiffersInOperands s t) (h : ResAndStatusGood s) :
    ResAndStatusGood t := by
  obtain ⟨_, _, _, _, _, _, _, _, _, rfl⟩ := ht
  exact resAndStatusGood_congr s _ rfl rfl h

/-- Settles O57: a command writes good results with a code or leaves RES, and no other access but reset writes them. -/
theorem stepKeepsResultsAndStatusGood : Obligations.StepKeepsResultsAndStatusGood := fun s t hres hstatus =>
  step_preserves ResAndStatusGood
    (pending := fun s _ => resAndStatusGood_congr s _ rfl rfl)
    (command := exec_keeps_resAndStatusGood)
    (operands := resAndStatusGood_of_differsInOperands)
    (lengthWrite := fun s _ _ => resAndStatusGood_congr s _ rfl rfl)
    (byteWrite := fun s _ _ _ => resAndStatusGood_congr s _ rfl rfl)
    (reset := fun _ => ⟨resultsGood_zero, .ok, rfl⟩)
    s t ⟨hres, hstatus⟩

end Sys2Proof.StateProofs
end

section
/-! The cursor, and its lanes within IN_LEN while it is armed. -/

namespace Sys2Proof.StateProofs

open Sys2Proof.Machine Sys2Proof.Laws

/-- Only the cursor and IN_LEN count. -/
theorem cursorGood_congr (s t : State) (hsu : t.su = s.su) (hin : t.inLen = s.inLen) (h : CursorGood s) :
    CursorGood t := by
  obtain ⟨hreserved, hbps, hwidth, hpos, hcount, harmed, hlanes⟩ := h
  constructor <;> simpa only [hsu, hin]

theorem cursorGood_of_zero (s : State) (h : s.su = Cursor.zero) : CursorGood s := by
  have hunarmed : s.su.armed = true → False := by rw [h]; decide
  exact
    { reserved := by rw [h]; rfl
      bps := by rw [h]; rfl
      width := by rw [h]; decide
      pos := by rw [h]; decide
      count := by rw [h]; decide
      armedWidth := fun ha => (hunarmed ha).elim
      lanes := fun ha => (hunarmed ha).elim }

/-- A disarmed cursor claims nothing of IN_LEN. -/
theorem cursorGood_of_disarm (s t : State) (ht : t.su = s.su.disarm) (h : CursorGood s) : CursorGood t := by
  have hreserved : s.su.disarm.state &&& suReservedMask = 0 := by
    rw [Cursor.disarm, BitVec.and_assoc, BitVec.and_comm 0xFFFFFFFE#32, ← BitVec.and_assoc, h.reserved]
    rfl
  have hunarmed : t.su.armed = true → False := by simp [ht, disarm_armed]
  exact
    { reserved := ht ▸ hreserved
      bps := by rw [ht, disarm_bps, disarm_width]; exact h.bps
      width := by rw [ht, disarm_width]; exact h.width
      pos := by rw [ht]; exact h.pos
      count := by rw [ht]; exact h.count
      armedWidth := fun ha => (hunarmed ha).elim
      lanes := fun ha => (hunarmed ha).elim }

/-! ## SMP.START -/

theorem bytesPerSample_bounds (w : Nat) (hlo : 1 ≤ w) (hhi : w ≤ 32) :
    1 ≤ bytesPerSample w ∧ bytesPerSample w ≤ 4 := by
  unfold bytesPerSample
  omega

/-- SU_STATE of a started cursor keeps the reserved bits 0: one value for each of the 32 legal widths. -/
theorem armedState_reserved (w : Word) (hlo : 1 ≤ w.toNat) (hhi : w.toNat ≤ 32) :
    armedState (bytesPerSample w.toNat) w &&& suReservedMask = 0 := by
  obtain ⟨m, hm⟩ : ∃ m, m = w.toNat := ⟨_, rfl⟩
  have hw : w = BitVec.ofNat 32 m := by simp [hm]
  rw [← hm] at hlo hhi ⊢
  rw [hw]
  interval_cases m <;> rfl

theorem armedState_bps_width (c : Cursor) (w : Word) (hlo : 1 ≤ w.toNat) (hhi : w.toNat ≤ 32)
    (hc : c.state = armedState (bytesPerSample w.toNat) w) : c.bps = bytesPerSample w.toNat ∧ c.width = w.toNat := by
  obtain ⟨-, hb⟩ := bytesPerSample_bounds w.toNat hlo hhi
  rw [bps_eq, width_eq, hc, armedState_toNat _ _ (by omega) (by omega)]
  omega

/-- The complete lanes of a window end within it. -/
theorem startedCursor_good (s : State) (c : Word) (hlo : 1 ≤ s.width.toNat) (hhi : s.width.toNat ≤ 32)
    (hwin : s.soff.toNat + s.slen.toNat ≤ s.inLen.toNat) (hin : s.inLen.toNat ≤ Config.inCap) :
    CursorGood { s with su := startedCursor s, status := c } := by
  obtain ⟨hbps, hwidth⟩ := armedState_bps_width (startedCursor s) s.width hlo hhi rfl
  obtain ⟨hcap, hcap'⟩ := inCap_bounds
  have hdiv : s.slen.toNat / bytesPerSample s.width.toNat ≤ s.slen.toNat := Nat.div_le_self _ _
  have hlanes := Nat.div_mul_le_self s.slen.toNat (bytesPerSample s.width.toNat)
  have hcount : (startedCursor s).count.toNat = s.slen.toNat / bytesPerSample s.width.toNat := by
    rw [startedCursor, BitVec.toNat_ofNat]
    exact Nat.mod_eq_of_lt (by omega)
  have hoff : (startedCursor s).off = s.soff := rfl
  exact
    { reserved := armedState_reserved s.width hlo hhi
      bps := by rw [hbps, hwidth]
      width := hwidth ▸ hhi
      pos := Nat.zero_le _
      count := by rw [hcount]; omega
      armedWidth := fun _ => hwidth ▸ hlo
      lanes := fun _ => by rw [hoff, hcount, hbps]; exact Nat.le_trans (by omega) hwin }

theorem smpStart_cursorGood (s t : State) (hl : LengthsGood s) (ht : exec .smpStart s = .next t) : CursorGood t := by
  obtain ⟨e, rfl⟩ | ⟨hlo, hhi, hwin, rfl⟩ := smpStart_outcome s t ht
  · exact cursorGood_of_zero _ rfl
  · exact startedCursor_good s 0 hlo hhi hwin hl.inLen

/-! ## SMP.NEXT -/

/-- SU_POS steps by one while it is below SU_COUNT. -/
theorem smpNext_cursorGood (s t : State) (h : CursorGood s) (ht : exec .smpNext s = .next t) : CursorGood t := by
  obtain ⟨e, rfl⟩ | ⟨-, hne, x, rfl⟩ := smpNext_outcome s t ht
  · exact cursorGood_congr s _ rfl rfl h
  · have hlt : s.su.pos.toNat < s.su.count.toNat :=
      Nat.lt_of_le_of_ne h.pos fun heq => hne (BitVec.eq_of_toNat_eq heq)
    have hcount := h.count
    have hpos : (s.su.pos + 1).toNat = s.su.pos.toNat + 1 := by bv_omega
    exact
      { reserved := h.reserved
        bps := h.bps
        width := h.width
        pos := by rw [hpos]; exact hlt
        count := h.count
        armedWidth := h.armedWidth
        lanes := h.lanes }

/-! ## Every step -/

theorem exec_cursorGood (i : Instr) (s t : State) (hl : LengthsGood s) (h : CursorGood s) (ht : exec i s = .next t) :
    CursorGood t := by
  rcases exec_outcome i s t ht with ⟨r, c, rfl⟩ | ⟨u, c, rfl | rfl, -⟩ | ⟨-, ⟨e, rfl⟩ | ⟨f, -, rfl⟩⟩
  · exact cursorGood_congr s _ rfl rfl h
  · exact smpStart_cursorGood s t hl ht
  · exact smpNext_cursorGood s t h ht
  · exact cursorGood_congr s _ rfl rfl h
  · exact cursorGood_congr s _ rfl rfl h

/-- Good lengths go with the good cursor: SMP.START takes SU_COUNT's bound from IN_LEN's. -/
def LengthsAndCursorGood (s : State) : Prop := LengthsGood s ∧ CursorGood s

theorem lengthsAndCursorGood_of_differsInOperands (s t : State) (ht : DiffersInOperands s t)
    (h : LengthsAndCursorGood s) : LengthsAndCursorGood t := by
  refine ⟨lengthsGood_of_differsInOperands s t ht h.1, ?_⟩
  obtain ⟨_, _, _, _, _, _, _, _, _, rfl⟩ := ht
  exact cursorGood_congr s _ rfl rfl h.2

/-- Settles O58: SMP.START sets a good cursor, SMP.NEXT steps within it, and whatever changes IN or IN_LEN disarms it. -/
theorem stepKeepsCursorGood : Obligations.StepKeepsCursorGood := fun s t hl hc ht =>
  (step_preserves LengthsAndCursorGood
    (pending := fun s _ h => ⟨lengthsGood_congr s _ rfl rfl rfl h.1, cursorGood_congr s _ rfl rfl h.2⟩)
    (command := fun i s t h ht => ⟨exec_lengthsGood i s t h.1 ht, exec_cursorGood i s t h.1 h.2 ht⟩)
    (operands := lengthsAndCursorGood_of_differsInOperands)
    (lengthWrite := fun s n hn h => ⟨writeInLen_lengthsGood s n hn h.1, cursorGood_of_disarm s _ rfl h.2⟩)
    (byteWrite := fun s i b hi h => ⟨writeIn_lengthsGood s i b hi h.1, cursorGood_of_disarm s _ rfl h.2⟩)
    (reset := fun s => ⟨resetBlock_lengthsGood s, cursorGood_of_zero _ rfl⟩)
    s t ⟨hl, hc⟩ ht).2

end Sys2Proof.StateProofs
end

section
/-! What each command leaves unchanged. -/

namespace Sys2Proof.StateProofs

open Sys2Proof.Machine Sys2Proof.Laws

theorem sameOperands_of_encoderOutcome (s t : State) (h : EncoderOutcome s t) : sameOperands s t := by
  obtain ⟨e, rfl⟩ | ⟨f, -, rfl⟩ := h <;> exact ⟨rfl, rfl, rfl, rfl, rfl, rfl, rfl, rfl, rfl, rfl, rfl, rfl⟩

theorem su_of_encoderOutcome (s t : State) (h : EncoderOutcome s t) : t.su = s.su := by
  obtain ⟨e, rfl⟩ | ⟨f, -, rfl⟩ := h <;> rfl

/-- An encoder writes no byte below OUT, so none of IN. -/
theorem byteAt_of_encoderOutcome (s t : State) (h : EncoderOutcome s t) (a : Nat) (ha : a < outBase) :
    t.byteAt a = s.byteAt a := by
  obtain ⟨e, rfl⟩ | ⟨f, -, rfl⟩ := h
  · rfl
  · exact finishEncode_outside f s a (.inl ha)

/-- Settles O11: the groups of `exec_outcome` one by one; RES is left by the instructions of `LeavesRes`. -/
theorem commandsWriteOnlyTheirGroups : Obligations.CommandsWriteOnlyTheirGroups := by
  intro i s
  obtain ⟨t, ht⟩ := exec_total i s
  have hres : (i = .nop ∨ i = .smpStart ∨ i = .smpNext ∨ ∃ v, i = .illegal v) → t.res = s.res := fun hi =>
    (exec_res_of_leavesRes i s t (by rcases hi with rfl | rfl | rfl | ⟨v, rfl⟩ <;> trivial) ht).1
  refine ⟨t, ht, ?_⟩
  rcases exec_outcome i s t ht with ⟨r, c, rfl⟩ | ⟨u, c, hi, rfl⟩ | ⟨hi, henc⟩
  · exact ⟨⟨rfl, rfl, rfl, rfl, rfl, rfl, rfl, rfl, rfl, rfl, rfl, rfl⟩, fun _ _ => rfl, fun _ _ => ⟨rfl, rfl⟩,
      fun _ _ => rfl, hres⟩
  · exact ⟨⟨rfl, rfl, rfl, rfl, rfl, rfl, rfl, rfl, rfl, rfl, rfl, rfl⟩, fun _ _ => rfl, fun _ _ => ⟨rfl, rfl⟩,
      fun hstart hnext => (hi.elim hstart hnext).elim, hres⟩
  · exact ⟨sameOperands_of_encoderOutcome s t henc, byteAt_of_encoderOutcome s t henc,
      fun hctrl hdata => (hi.elim hctrl hdata).elim, fun _ _ => su_of_encoderOutcome s t henc, hres⟩

end Sys2Proof.StateProofs
end

section
/-! A step runs the command its CMD write decodes to, and the one a placed word stands for. -/

namespace Sys2Proof.StateProofs

open Sys2Proof.Machine Sys2Proof.Laws

/-! ## Commands -/

/-- Settles O38: the two rules of a step that concern it. -/
theorem stepRunsTheDecodedCommand : Obligations.StepRunsTheDecodedCommand :=
  ⟨fun s v rest hs => step_command s _ rest _ hs (commandOf_cmd v), step_idle⟩

/-- A value from 8 up has a bit above its opcode field, or an opcode above 7 (30_encoding.md R113). -/
theorem decodeCommand_illegal (v : Word) (h : 8 ≤ v.toNat) : decodeCommand v = .illegal v := by
  unfold decodeCommand
  split
  · rfl
  · next hzero =>
    have hhigh : v.toNat / 256 = 0 := by rw [← commandZeroField_toNat, not_not.1 hzero]; rfl
    have hop : 8 ≤ (commandOpcode v).toNat := by rw [commandOpcode_toNat]; omega
    split
    case h_9 => rfl
    all_goals omega

theorem decodeCommand_commandWord (i : Instr) (hd : i.domain = .command) (hw : i.wellFormed = true) :
    decodeCommand (commandWord i) = i := by
  cases i
  case illegal v => exact decodeCommand_illegal v (by simpa [Instr.wellFormed, illegalCommand] using hw)
  case nop | hdrPack | hdrUnpack | encCtrl | encData | decode | smpStart | smpNext => rfl
  all_goals simp [Instr.domain] at hd

/-- Settles O39: the command word of a well-formed command decodes to it. -/
theorem stepRunsEncodedCommands : Obligations.StepRunsEncodedCommands := by
  intro s i rest hd hw hs
  rw [stepRunsTheDecodedCommand.1 s _ rest hs, decodeCommand_commandWord i hd hw]

/-! ## Header words and item codes -/

theorem headerWord_of_type (w : Half) (n : Nat) (h : (headerType w).toNat = n) :
    headerWord (BitVec.ofNat 3 n) (headerLen w) = w := by
  rw [← h, BitVec.ofNat_toNat, BitVec.setWidth_eq, headerWord_fields]

/-- A header word's instruction is DECODE's effect with that header word (log 6). -/
theorem exec_decodeHeader (w : Half) (s : State) : exec (decodeHeader w) s = .next (decodeIn w (inHalf s 2) s) := by
  have hword (n : Nat) (h : (headerType w).toNat = n) :
      (.next (decodeIn (headerWord (BitVec.ofNat 3 n) (headerLen w)) (inHalf s 2) s) : Host.Outcome State Fault Refusal)
        = .next (decodeIn w (inHalf s 2) s) := by rw [headerWord_of_type w n h]
  have hlt := (headerType w).isLt
  unfold decodeHeader
  split
  case h_8 =>
    simp only [imp_false] at *
    have htype : (headerType w).toNat = 7 := by omega
    exact hword 7 htype
  all_goals
    next htype => exact hword _ htype

theorem half_eq_ofNat (c : Half) (n : Nat) (h : c.toNat = n) : c = BitVec.ofNat 16 n := by
  rw [← h, BitVec.ofNat_toNat, BitVec.setWidth_eq]

/-- An item code's instruction is DECODE's effect with that sub-header (log 7). -/
theorem exec_of_decodeItem (c : Half) (i : Instr) (s : State) (h : decodeItem c = some i) :
    exec i s = .next (decodeIn (inHalf s 0) c s) := by
  unfold decodeItem at h
  split at h
  case h_7 => simp at h
  all_goals
    next hcode =>
    cases h
    rw [half_eq_ofNat c _ hcode]
    rfl

/-- A 16-bit word of the table reads as its item code, or else as a header word (log 8). -/
theorem decodeTableWord_half (w : Half) :
    decodeTableWord 16 w.toNat = some ((decodeItem w).getD (decodeHeader w)) := by
  simp only [decodeTableWord, BitVec.ofNat_toNat, BitVec.setWidth_eq, bytesLe16, decodeBytes, le16_bytesLe16]
  cases decodeItem w <;> rfl

/-! ## Placed words -/

/-- A frame placed at IN[0] reads back. -/
theorem inByte_of_setBytes (s : State) (m : Memory) (bs : List Byte) (hm : s.mem = m.setBytes inBase bs) (j : Nat)
    (hj : j < bs.length) : s.inByte j = bs[j] := by
  rw [State.inByte, State.byteAt, hm, get_setBytes_inside _ _ _ _ hj, Option.getD_some]

/-- The block's header word and sub-header where a frame of two half words has been placed at IN[0]. -/
theorem inHalf_of_setBytes (s : State) (m : Memory) (w sub : Half)
    (hm : s.mem = m.setBytes inBase (bytesLe16 w ++ bytesLe16 sub)) : inHalf s 0 = w ∧ inHalf s 2 = sub := by
  have hbyte := inByte_of_setBytes s m _ hm
  constructor
  · rw [inHalf, hbyte 0 (by simp), hbyte 1 (by simp)]
    exact le16_bytesLe16 w
  · rw [inHalf, hbyte 2 (by simp), hbyte 3 (by simp)]
    exact le16_bytesLe16 sub

/-- In the frame that `tableFrame` makes of a word, DECODE runs the word's instruction. -/
theorem exec_decode_of_tableFrame (w : Half) (m : Memory) (s : State)
    (hm : s.mem = m.setBytes inBase (tableFrame w).1) :
    exec .decode s = exec ((decodeItem w).getD (decodeHeader w)) s := by
  have hdecode : exec .decode s = .next (decodeIn (inHalf s 0) (inHalf s 2) s) := rfl
  rw [hdecode]
  cases hitem : decodeItem w with
  | some i =>
    obtain ⟨-, hsub⟩ := inHalf_of_setBytes s m (headerWord 0 4) w (by rw [hm, tableFrame, hitem])
    rw [hsub, Option.getD_some, exec_of_decodeItem w i s hitem]
  | none =>
    obtain ⟨hword, -⟩ := inHalf_of_setBytes s m w 0 (by rw [hm, tableFrame, hitem]; rfl)
    rw [hword, Option.getD_none, exec_decodeHeader]

/-- Settles O40: a placed command word is the next CMD write; a placed half word stands in a frame that DECODE, the
next CMD write, reads. -/
theorem placedWordsRunNext : Obligations.PlacedWordsRunNext := by
  constructor
  · intro s v
    have hplaced : s.withFetchWord 32 v.toNat = { s with host := .write 4 0 v :: s.host } := by
      simp [State.withFetchWord, placeTableWord]
    rw [hplaced]
    exact step_command _ _ s.host _ rfl (commandOf_cmd v)
  · intro s w i hi
    rw [decodeTableWord_half] at hi
    have hmem : (s.withFetchWord 16 w.toNat).mem = s.mem.setBytes inBase (tableFrame w).1 := by
      simp [State.withFetchWord, placeTableWord]
    have hstep : step (s.withFetchWord 16 w.toNat) = exec .decode { s.withFetchWord 16 w.toNat with host := s.host } :=
      step_command _ _ s.host _ rfl (commandOf_cmd 5)
    rw [← Option.some.inj hi]
    exact hstep.trans (exec_decode_of_tableFrame w s.mem _ hmem)

end Sys2Proof.StateProofs
end

section
/-! Accesses to the register window: how a step performs them, and what they change. -/

namespace Sys2Proof.StateProofs

open Sys2Proof.Machine Sys2Proof.Laws

/-! ## The registers -/

theorem offset_injective (r q : Reg) (h : r.offset = q.offset) : r = q :=
  Option.some.inj (by rw [← atOffset_offset r, h, atOffset_offset q])

theorem offset_lt_and_aligned (r : Reg) : r.offset < 0x100 ∧ r.offset % 4 = 0 := by
  cases r <;> decide

theorem writeRegister_offset (r : Reg) (v : Word) (s : State) : writeRegister r.offset v s = s.writeReg r v := by
  rw [writeRegister, atOffset_offset]

/-- The registers that store what the host writes (10_state.md R24 (a)). -/
def operandRegisters : List Reg := [.frameType, .item, .tlen, .hdr, .width, .soff, .slen]

theorem readReg_writeReg_same (s : State) (r : Reg) (v : Word) (hr : r ∈ operandRegisters) :
    (s.writeReg r v).readReg r = v := by
  simp only [operandRegisters, List.mem_cons, List.not_mem_nil, or_false] at hr
  rcases hr with rfl | rfl | rfl | rfl | rfl | rfl | rfl <;> rfl

theorem readReg_writeReg_other (s : State) (r q : Reg) (v : Word) (hr : r ∈ operandRegisters) (hq : q ≠ r) :
    (s.writeReg r v).readReg q = s.readReg q := by
  simp only [operandRegisters, List.mem_cons, List.not_mem_nil, or_false] at hr
  rcases hr with rfl | rfl | rfl | rfl | rfl | rfl | rfl <;> cases q <;> simp [State.writeReg, State.readReg] at hq ⊢

/-- A write to a register leaves memory and the model's own fields. -/
theorem writeReg_frame (s : State) (r : Reg) (v : Word) :
    (s.writeReg r v).mem = s.mem ∧ (s.writeReg r v).host = s.host ∧ (s.writeReg r v).readData = s.readData ∧
      (s.writeReg r v).draws = s.draws ∧ (s.writeReg r v).resets = s.resets := by
  rcases writeReg_cases r v s with ⟨_, _, _, _, _, _, _, h⟩ | ⟨_, h, -⟩ <;> rw [h] <;> exact ⟨rfl, rfl, rfl, rfl, rfl⟩

/-- A write to STATUS, or to a register from OUT_LEN to INCAP, is ignored (10_state.md R24 (b)). -/
theorem writeReg_readOnly (s : State) (r : Reg) (v : Word) (h : r.offset = 0x04 ∨ 0x28 ≤ r.offset) :
    s.writeReg r v = s := by
  cases r
  case frameType | item | tlen | hdr | width | soff | slen | inLen => simp [Reg.offset] at h
  all_goals rfl

/-- A write that the window ignores: at a read-only register or a reserved offset (10_state.md R24 (b), (e)). -/
theorem writeRegister_ignored (off : Nat) (v : Word) (s : State) (h : off = 0x04 ∨ 0x28 ≤ off) :
    writeRegister off v s = s := by
  unfold writeRegister
  split
  · next r hr => exact writeReg_readOnly s r v (offset_of_atOffset off r hr ▸ h)
  · rfl

/-! ## The step -/

theorem window_toNat (off : Nat) (h : off < 0x100) : (BitVec.ofNat 18 off : Address).toNat = off := by
  rw [BitVec.toNat_ofNat]
  exact Nat.mod_eq_of_lt (by omega)

theorem target_window (off : Nat) (h : off < 0x100) : target (BitVec.ofNat 18 off) = .register off := by
  rw [target_register _ (by rw [window_toNat off h]; exact h), window_toNat off h]

theorem supportedAccess_window (off : Nat) (h : off < 0x100) (h4 : off % 4 = 0) :
    supportedAccess 4 (BitVec.ofNat 18 off) = true := by
  simp [supportedAccess, target_window off h, h4]

theorem step_register_write (s : State) (off : Nat) (v : Word) (rest : List HostAccess) (h : off < 0x100)
    (h4 : off % 4 = 0) (hcmd : off ≠ 0) (hs : s.host = .write 4 (BitVec.ofNat 18 off) v :: rest) :
    step s = .next (writeRegister off v { s with host := rest }) := by
  have hnone : commandOf (.write 4 (BitVec.ofNat 18 off) v) = none :=
    commandOf_write_none 4 _ v (by rw [window_toNat off h]; exact fun hc => hcmd hc.2)
  rw [step_access s _ rest hs hnone]
  simp only [busAccess, supportedAccess_window off h h4, if_true, busWrite, target_window off h]

theorem step_register_read (s : State) (off : Nat) (rest : List HostAccess) (h : off < 0x100) (h4 : off % 4 = 0)
    (hs : s.host = .read 4 (BitVec.ofNat 18 off) :: rest) :
    step s = .next (readRegister off { s with host := rest }) := by
  rw [step_access s _ rest hs rfl]
  simp only [busAccess, supportedAccess_window off h h4, if_true, busRead, target_window off h]

/-! ## The statements -/

/-- Settles O41. -/
theorem operandRegistersStoreAllBits : Obligations.OperandRegistersStoreAllBits := by
  intro s r v rest hr hs
  obtain ⟨hlt, h4⟩ := offset_lt_and_aligned r
  have hcmd : r.offset ≠ 0 := fun h => absurd (offset_injective r .cmd h ▸ hr) (by decide)
  refine ⟨_, step_register_write s r.offset v rest hlt h4 hcmd hs, ?_⟩
  rw [writeRegister_offset]
  exact ⟨readReg_writeReg_same _ r v hr, fun q => readReg_writeReg_other _ r q v hr, writeReg_frame _ r v⟩

/-- Settles O42: taken or not, the write disarms the cursor. -/
theorem inLenWriteFitsOrIsIgnored : Obligations.InLenWriteFitsOrIsIgnored := by
  intro s v rest hs
  have hstep := step_register_write s 0x24 v rest (by decide) (by decide) (by decide) hs
  have hwrite : writeRegister 0x24 v { s with host := rest } =
      { s with host := rest, inLen := if v.toNat ≤ Config.inCap then v else s.inLen, su := s.su.disarm } := by
    rw [show (0x24 : Nat) = Reg.inLen.offset from rfl, writeRegister_offset, State.writeReg, State.writeInLen]
    split <;> rfl
  exact ⟨_, hstep.trans (congrArg _ hwrite), rfl, disarm_armed s.su, disarm_state_toNat s.su⟩

/-- Settles O43. -/
theorem readOnlyWritesAreIgnored : Obligations.ReadOnlyWritesAreIgnored := by
  intro s off v rest hoff h4 hs
  rw [step_register_write s off v rest (by omega) h4 (by omega) hs, writeRegister_ignored off v _ (by omega)]

/-- What a read at an offset of the window returns: 0 at a reserved offset (10_state.md R24 (e)). -/
def windowValue (s : State) (off : Nat) : Word := ((Reg.atOffset off).map s.readReg).getD 0

theorem readRegister_eq (off : Nat) (s : State) : readRegister off s = s.returnData (windowValue s off) := by
  unfold readRegister windowValue
  cases Reg.atOffset off <;> rfl

theorem windowValue_offset (s : State) (r : Reg) : windowValue s r.offset = s.readReg r := by
  simp [windowValue, atOffset_offset]

theorem windowValue_reserved (s : State) (off : Nat) (h : 0x6C ≤ off) : windowValue s off = 0 := by
  simp [windowValue, atOffset_reserved off h]

/-- Settles O44: each clause is what `windowValue` is at its offsets. -/
theorem registerReadsHaveNoSideEffect : Obligations.RegisterReadsHaveNoSideEffect := by
  intro s off rest hoff h4 hs
  have hstep : step s = .next { s with host := rest, readData := windowValue s off } := by
    rw [step_register_read s off rest hoff h4 hs, readRegister_eq]
    rfl
  refine ⟨windowValue s off, hstep, ?_, windowValue_reserved s off, ?_, ?_, ?_⟩
  · rintro rfl
    exact windowValue_offset s .cmd
  · rintro rfl
    exact windowValue_offset s .id
  · rintro rfl
    rw [show (0x68 : Nat) = Reg.inCap.offset from rfl, windowValue_offset, readReg_inCap]
  · rintro r rfl
    exact windowValue_offset s r

end Sys2Proof.StateProofs
end

section
/-! What every host access leaves, and the state after reset. -/

namespace Sys2Proof.StateProofs

open Sys2Proof.Machine Sys2Proof.Laws

theorem outByte_writeIn (s : State) (i j : Nat) (b : Byte) (hi : i < Config.inCap) :
    (writeIn i b s).outByte j = s.outByte j := by
  have hget : (writeIn i b s).mem.get (outBase + j) = s.mem.get (outBase + j) :=
    get_set_other s.mem _ _ b (inAddress_ne_outAddress i j hi)
  simp only [State.outByte, State.byteAt, hget]
  rfl

/-- Settles O52: of the effects of an access only reset writes STATUS, RES, OUT_LEN or OUT. -/
theorem hostAccessesLeaveStatus : Obligations.HostAccessesLeaveStatus := by
  intro s t x rest hs hcmd hreset ht
  rw [step_access s x rest hs hcmd] at ht
  rcases busAccess_outcome x _ t ht with ⟨_, _, _, _, _, _, _, _, _, rfl⟩ | ⟨n, rfl, -⟩ | ⟨i, b, hi, rfl⟩ | ⟨hr, -⟩
  · exact ⟨rfl, rfl, rfl, fun _ => rfl⟩
  · exact ⟨rfl, rfl, rfl, fun _ => rfl⟩
  · exact ⟨rfl, rfl, rfl, fun j => outByte_writeIn _ i j b hi⟩
  · exact absurd hr hreset

/-- Settles O51. -/
theorem resetValues : Obligations.ResetValues := by
  refine ⟨fun r hid hcap => ?_, rfl, readReg_inCap State.reset⟩
  cases r
  case id => exact absurd rfl hid
  case inCap => exact absurd rfl hcap
  all_goals rfl

/-- Settles O59. -/
theorem resetIsGood : Obligations.ResetIsGood :=
  { memory := ⟨reset_wf, fun _ hc => absurd hc List.not_mem_nil⟩
    status := ⟨.ok, rfl⟩
    lengths := ⟨Nat.zero_le _, .inl rfl, fun i hi => absurd hi (Nat.not_lt_zero i)⟩
    results := resultsGood_zero
    cursor := cursorGood_of_zero _ rfl }

end Sys2Proof.StateProofs
end

section
/-! The memory: canonical, and within IN and OUT. -/

namespace Sys2Proof.MemoryProofs

open Sys2Proof.Machine Sys2Proof.Laws Sys2Proof.StateProofs

/-- Only memory counts. -/
theorem memoryGood_congr (s t : State) (hmem : t.mem = s.mem) (h : MemoryGood s) : MemoryGood t :=
  ⟨hmem ▸ h.canonical, hmem ▸ h.inBuffers⟩

/-- A frame that fits OUT is written within OUT. -/
theorem encoderOutcome_memoryGood (s t : State) (ht : EncoderOutcome s t) (h : MemoryGood s) : MemoryGood t := by
  obtain ⟨e, rfl⟩ | ⟨f, ⟨-, hfit⟩, rfl⟩ := ht
  · exact memoryGood_congr s _ rfl h
  · refine ⟨setBytes_wf _ _ _ h.canonical, fun c hc => ?_⟩
    rcases mem_setBytes _ _ _ c hc with ⟨hlo, hhi⟩ | hold
    · exact .inr ⟨hlo, by omega⟩
    · exact h.inBuffers c hold

theorem exec_memoryGood (i : Instr) (s t : State) (h : MemoryGood s) (ht : exec i s = .next t) : MemoryGood t := by
  rcases exec_outcome i s t ht with ⟨r, c, rfl⟩ | ⟨u, c, -, rfl⟩ | ⟨-, henc⟩
  · exact memoryGood_congr s _ rfl h
  · exact memoryGood_congr s _ rfl h
  · exact encoderOutcome_memoryGood s t henc h

theorem memoryGood_of_differsInOperands (s t : State) (ht : DiffersInOperands s t) (h : MemoryGood s) :
    MemoryGood t := by
  obtain ⟨_, _, _, _, _, _, _, _, _, rfl⟩ := ht
  exact memoryGood_congr s _ rfl h

theorem writeIn_memoryGood (s : State) (i : Nat) (b : Byte) (hi : i < Config.inCap) (h : MemoryGood s) :
    MemoryGood (writeIn i b s) := by
  refine ⟨set_wf _ _ _ h.canonical, fun c hc => ?_⟩
  rcases mem_set _ _ _ c hc with rfl | hold
  · exact .inl ⟨Nat.le_add_right _ _, Nat.add_lt_add_left hi _⟩
  · exact h.inBuffers c hold

/-- Settles O55: only an encoder's frame and a host byte write to IN list addresses, and those are of OUT and of IN. -/
theorem stepKeepsMemoryGood : Obligations.StepKeepsMemoryGood :=
  step_preserves MemoryGood
    (pending := fun s _ => memoryGood_congr s _ rfl)
    (command := exec_memoryGood)
    (operands := memoryGood_of_differsInOperands)
    (lengthWrite := fun s _ _ => memoryGood_congr s _ rfl)
    (byteWrite := writeIn_memoryGood)
    (reset := fun _ => ⟨reset_wf, fun _ hc => absurd hc List.not_mem_nil⟩)

end Sys2Proof.MemoryProofs
end

section
/-! The buffer windows and the unmapped addresses: how a step performs an access there, and what it refuses. -/

namespace Sys2Proof.MemoryProofs

open Sys2Proof.Machine Sys2Proof.Laws Sys2Proof.StateProofs

/-! ## The address map -/

theorem inAddress_toNat (i : Nat) (hi : i < Config.inCap) :
    (BitVec.ofNat 18 (inBase + i) : Address).toNat = inBase + i := by
  have := inCap_bounds
  rw [BitVec.toNat_ofNat]
  exact Nat.mod_eq_of_lt (by simp only [inBase]; omega)

theorem outAddress_toNat (i : Nat) (hi : i < Config.outCap) :
    (BitVec.ofNat 18 (outBase + i) : Address).toNat = outBase + i := by
  rw [BitVec.toNat_ofNat]
  exact Nat.mod_eq_of_lt (by simp only [outBase, Config.outCap] at hi ⊢; omega)

theorem target_inAddress (i : Nat) (hi : i < Config.inCap) : target (BitVec.ofNat 18 (inBase + i)) = .inByte i :=
  target_in _ i hi (inAddress_toNat i hi)

theorem target_outAddress (i : Nat) (hi : i < Config.outCap) : target (BitVec.ofNat 18 (outBase + i)) = .outByte i :=
  target_out _ i hi (outAddress_toNat i hi)

/-! ## The step -/

theorem step_read (s : State) (width : Nat) (a : Address) (rest : List HostAccess)
    (hshape : supportedAccess width a = true) (hs : s.host = .read width a :: rest) :
    step s = .next (busRead a { s with host := rest }) := by
  rw [step_access s _ rest hs rfl, busAccess, if_pos hshape]

theorem step_write (s : State) (width : Nat) (a : Address) (v : Word) (rest : List HostAccess)
    (hcmd : ¬(width = 4 ∧ a.toNat = 0)) (hshape : supportedAccess width a = true)
    (hs : s.host = .write width a v :: rest) :
    step s = .next (busWrite a v { s with host := rest }) := by
  rw [step_access s _ rest hs (commandOf_write_none width a v hcmd), busAccess, if_pos hshape]

/-- An access of a shape outside the interface is refused; the CMD write, which runs a command, is none. -/
theorem step_refused (s : State) (width : Nat) (a : Address) (v : Word) (rest : List HostAccess)
    (hshape : supportedAccess width a = false)
    (hs : s.host = .read width a :: rest ∨ s.host = .write width a v :: rest) :
    step s = .refused (.unsupportedAccess width a) := by
  have hcmd : ¬(width = 4 ∧ a.toNat = 0) := by
    rintro ⟨rfl, ha⟩
    simp [supportedAccess, target_register a (by omega), ha] at hshape
  rcases hs with hs | hs
  · simp only [step_access s _ rest hs rfl, busAccess, hshape, Bool.false_eq_true, if_false]
  · simp only [step_access s _ rest hs (commandOf_write_none width a v hcmd), busAccess, hshape, Bool.false_eq_true,
      if_false]

/-! ## IN -/

theorem step_in_read (s : State) (i : Nat) (rest : List HostAccess) (hi : i < Config.inCap)
    (hs : s.host = .read 1 (BitVec.ofNat 18 (inBase + i)) :: rest) :
    step s = .next (readIn i { s with host := rest }) := by
  rw [step_read s 1 _ rest (by simp [supportedAccess, target_inAddress i hi]) hs, busRead, target_inAddress i hi]

theorem step_in_write (s : State) (i : Nat) (v : Word) (rest : List HostAccess) (hi : i < Config.inCap)
    (hs : s.host = .write 1 (BitVec.ofNat 18 (inBase + i)) v :: rest) :
    step s = .next (writeIn i (v.setWidth 8) { s with host := rest }) := by
  rw [step_write s 1 _ v rest (by simp) (by simp [supportedAccess, target_inAddress i hi]) hs, busWrite,
    target_inAddress i hi]

theorem inByte_writeIn_same (s : State) (i : Nat) (b : Byte) : (writeIn i b s).inByte i = b := by
  have hget : (writeIn i b s).mem.get (inBase + i) = some b := get_set_same s.mem _ b
  rw [State.inByte, State.byteAt, hget, Option.getD_some]

theorem writeIn_outside (s : State) (i : Nat) (b : Byte) :
    sameBytesOutside (inBase + i) (inBase + i + 1) s (writeIn i b s) := by
  intro a ha
  have hget : (writeIn i b s).mem.get a = s.mem.get a := get_set_other s.mem _ a b (by omega)
  rw [State.byteAt, hget]
  rfl

/-- Settles O45: the step is `writeIn`, a store and a disarm. -/
theorem inByteWriteStoresAndDisarms : Obligations.InByteWriteStoresAndDisarms := by
  intro s i v rest hi hs
  exact ⟨_, step_in_write s i v rest hi hs, rfl, inByte_writeIn_same _ i _, writeIn_outside _ i _, disarm_armed s.su,
    disarm_state_toNat s.su⟩

/-- Settles O46: the two branches of `readIn`. -/
theorem inByteReads : Obligations.InByteReads := by
  intro s i rest hi hs
  rw [step_in_read s i rest hi hs]
  constructor
  · intro hlt
    rw [readIn, if_pos hlt]
    rfl
  · intro hle
    rw [readIn, if_neg (Nat.not_lt.2 hle)]
    rfl

/-! ## OUT -/

theorem step_out_read (s : State) (i : Nat) (rest : List HostAccess) (hi : i < Config.outCap)
    (hs : s.host = .read 1 (BitVec.ofNat 18 (outBase + i)) :: rest) :
    step s = .next (readOut i { s with host := rest }) := by
  rw [step_read s 1 _ rest (by simp [supportedAccess, target_outAddress i hi]) hs, busRead, target_outAddress i hi]

theorem step_out_write (s : State) (i : Nat) (v : Word) (rest : List HostAccess) (hi : i < Config.outCap)
    (hs : s.host = .write 1 (BitVec.ofNat 18 (outBase + i)) v :: rest) :
    step s = .next { s with host := rest } := by
  rw [step_write s 1 _ v rest (by simp) (by simp [supportedAccess, target_outAddress i hi]) hs, busWrite,
    target_outAddress i hi]

/-- Settles O47: the two branches of `readOut`, and the write that is ignored. -/
theorem outByteAccesses : Obligations.OutByteAccesses := by
  intro s i rest hi
  refine ⟨fun hs => ?_, fun v hs => step_out_write s i v rest hi hs⟩
  rw [step_out_read s i rest hi hs]
  constructor
  · intro hlt
    rw [readOut, if_pos hlt]
    rfl
  · intro hle
    rw [readOut, if_neg (Nat.not_lt.2 hle)]
    rfl

/-! ## Outside the windows, and other shapes -/

/-- An access that begins unmapped is of a supported shape when it reaches no buffer window. -/
theorem supportedAccess_unmapped (width : Nat) (a : Address) (ht : target a = .unmapped)
    (hin : a.toNat < inBase → a.toNat + width ≤ inBase) (hout : a.toNat < outBase → a.toNat + width ≤ outBase) :
    supportedAccess width a = true := by
  simp only [supportedAccess, ht, reachesWindow, Bool.not_eq_true', Bool.or_eq_false_iff, decide_eq_false_iff_not]
  omega

/-- Settles O48: the address is unmapped, and the width stays outside the windows. -/
theorem unmappedAccesses : Obligations.UnmappedAccesses := by
  intro s a width v rest ha
  have ht : target a = .unmapped := target_unmapped a (by omega)
  have hshape : supportedAccess width a = true :=
    supportedAccess_unmapped width a ht (by simp only [inBase]; omega) (by simp only [outBase]; omega)
  constructor
  · intro hs
    rw [step_read s width a rest hshape hs, busRead, ht]
    rfl
  · intro hs
    rw [step_write s width a v rest (by omega) hshape hs, busWrite, ht]

/-- Settles O49: in each of the three windows the shape fails `supportedAccess`. -/
theorem unsupportedShapesAreRefused : Obligations.UnsupportedShapesAreRefused := by
  intro s a width v rest ha hs
  refine step_refused s width a v rest ?_ hs
  rcases ha with ⟨hreg, hbad⟩ | ⟨hlo, hhi, hw⟩ | ⟨hlo, hhi, hw⟩
  · rw [supportedAccess, target_register a hreg]
    exact decide_eq_false (by omega)
  · have ht := target_in a (a.toNat - inBase) (by simp only [inBase]; omega) (by simp only [inBase]; omega)
    rw [supportedAccess, ht]
    exact decide_eq_false hw
  · have ht := target_out a (a.toNat - outBase) (by simp only [outBase, Config.outCap]; omega)
      (by simp only [outBase]; omega)
    rw [supportedAccess, ht]
    exact decide_eq_false hw

end Sys2Proof.MemoryProofs
end

section
/-! SUPPORT. What a command does is determined by its operands: the operand registers, IN_LEN and `IN[0..IN_LEN]`. Every
instruction but SMP.NEXT, which reads the cursor, has one effect in all states with the same operands. -/

namespace Sys2Proof.MemoryProofs

open Sys2Proof.Machine Sys2Proof.Laws Sys2Proof.StateProofs

/-! ## The operands -/

/-- The operands agree: the registers the host writes, and the bytes of IN below IN_LEN (20_memory.md R76). -/
structure SameInput (s t : State) : Prop where
  registers : sameOperands s t
  bytes : ∀ j, j < s.inLen.toNat → t.inByte j = s.inByte j

/-- STATUS, OUT_LEN, RES and the cursor are no operands, and of memory only `IN[0..IN_LEN]` is one. -/
theorem sameInput_of_update (s : State) (c o : Word) (r : ResultGroup) (u : Cursor) (m : Memory)
    (h : ∀ j, j < s.inLen.toNat → ({ s with mem := m } : State).inByte j = s.inByte j) :
    SameInput s { s with status := c, outLen := o, res := r, su := u, mem := m } :=
  ⟨⟨rfl, rfl, rfl, rfl, rfl, rfl, rfl, rfl, rfl, rfl, rfl, rfl⟩, h⟩

theorem sameInput_refl (s : State) : SameInput s s :=
  sameInput_of_update s s.status s.outLen s.res s.su s.mem fun _ _ => rfl

theorem inLen_of_sameInput (s t : State) (h : SameInput s t) : t.inLen = s.inLen := by
  obtain ⟨-, -, -, -, -, -, -, hin, -⟩ := h.registers
  exact hin

theorem frameType_item_of_sameInput (s t : State) (h : SameInput s t) :
    t.frameType = s.frameType ∧ t.item = s.item := by
  obtain ⟨htype, hitem, -⟩ := h.registers
  exact ⟨htype, hitem⟩

theorem packOperands_congr (s t : State) (h : SameInput s t) : packOperands t = packOperands s := by
  obtain ⟨htype, -, htlen, -⟩ := h.registers
  simp only [packOperands, typeOperand, lengthOperand, htype, htlen]

theorem paramsOperand_congr (s t : State) (h : SameInput s t) : paramsOperand t = paramsOperand s := by
  rw [paramsOperand, inLen_of_sameInput s t h]
  exact inBytes_congr s t 0 _ fun j hj => by simpa using h.bytes j hj

theorem inHalf_congr (s t : State) (a : Nat) (h : SameInput s t) (ha : a + 2 ≤ s.inLen.toNat) :
    inHalf t a = inHalf s a := by
  rw [inHalf, inHalf, h.bytes a (by omega), h.bytes (a + 1) (by omega)]

/-! ## The effects -/

/-- What an instruction does once its operands are read. -/
inductive Effect where
  /-- STATUS alone. -/
  | status (c : Status)
  /-- RES written whole, and STATUS. -/
  | results (r : ResultGroup) (c : Status)
  /-- The cursor written whole, and STATUS. -/
  | cursor (u : Cursor) (c : Status)
  /-- An encoder's end. -/
  | encoded (r : Except Status EncodedFrame)

/-- The state an effect leaves. -/
def Effect.apply : Effect → State → State
  | .status c, s => s.complete c
  | .results r c, s => { s with res := r }.complete c
  | .cursor u c, s => { s with su := u }.complete c
  | .encoded r, s => finishEncode r s

/-- An effect does not read what effects write, so in a canonical memory a second time adds nothing. -/
theorem apply_apply (e : Effect) (s : State) (h : s.mem.wf) : e.apply (e.apply s) = e.apply s := by
  cases e with
  | status | results | cursor => rfl
  | encoded r =>
    cases r with
    | error => rfl
    | ok f => simp only [Effect.apply, finishEncode_ok, setBytes_setBytes s.mem outBase f.bytes h]

/-- No effect but on memory depends on memory. -/
theorem apply_mem (e : Effect) (s : State) (m : Memory) :
    e.apply { s with mem := m } = { e.apply s with mem := (e.apply { s with mem := m }).mem } := by
  cases e with
  | status | results | cursor => rfl
  | encoded r => cases r <;> rfl

/-- The instruction has this effect in every state with the operands of s. -/
def HasEffect (i : Instr) (s : State) (e : Effect) : Prop := ∀ t, SameInput s t → exec i t = .next (e.apply t)

theorem eq_apply_of_hasEffect (i : Instr) (s t u : State) (e : Effect) (h : HasEffect i s e) (ht : SameInput s t)
    (hu : exec i t = .next u) : u = e.apply t :=
  Host.Outcome.next.inj (hu.symm.trans (h t ht))

theorem hdrPack_effect (s : State) : ∃ e, HasEffect .hdrPack s e := by
  cases hp : packOperands s with
  | error c =>
    refine ⟨.results .zero c, fun t ht => ?_⟩
    rw [exec, execHdrPack, packOperands_congr s t ht, hp]
    rfl
  | ok p =>
    refine ⟨.results (packedRes p) .ok, fun t ht => ?_⟩
    rw [exec, execHdrPack, packOperands_congr s t ht, hp]
    rfl

theorem hdrUnpack_effect (s : State) : ∃ e, HasEffect .hdrUnpack s e := by
  by_cases hbig : 0xFFFF < s.hdr.toNat
  · refine ⟨.results .zero .invalidArgument, fun t ht => ?_⟩
    obtain ⟨-, -, -, hhdr, -⟩ := ht.registers
    rw [exec, execHdrUnpack, hhdr, if_pos hbig]
    rfl
  · refine ⟨.results (unpackedRes (headerOperand s)) .ok, fun t ht => ?_⟩
    obtain ⟨-, -, -, hhdr, -⟩ := ht.registers
    rw [exec, execHdrUnpack, headerOperand, hhdr, if_neg hbig]
    rfl

theorem encoder_effect (i : Instr) (hi : i = .encCtrl ∨ i = .encData) (s : State) :
    ∃ r, HasEffect i s (.encoded r) := by
  rcases hi with rfl | rfl
  · refine ⟨encodeControl s.frameType s.item (paramsOperand s), fun t ht => ?_⟩
    obtain ⟨htype, hitem⟩ := frameType_item_of_sameInput s t ht
    rw [exec, execEncCtrl, htype, hitem, paramsOperand_congr s t ht]
    rfl
  · refine ⟨encodeData s.frameType (paramsOperand s), fun t ht => ?_⟩
    obtain ⟨htype, -⟩ := frameType_item_of_sameInput s t ht
    rw [exec, execEncData, htype, paramsOperand_congr s t ht]
    rfl

/-- What SMP.START does with its operands: the checks in the order of 43_samples.md R198. -/
def startEffect (s : State) : Effect :=
  if !validWidth s.width.toNat then .cursor .zero .invalidSampleWidth
  else if s.inLen.toNat < s.soff.toNat + s.slen.toNat then .cursor .zero .invalidArgument
  else .cursor (startedCursor s) .ok

theorem exec_smpStart (s : State) : exec .smpStart s = .next ((startEffect s).apply s) := by
  simp only [exec, execSmpStart, startEffect]
  split
  · rfl
  · split <;> rfl

theorem startEffect_congr (s t : State) (h : SameInput s t) : startEffect t = startEffect s := by
  obtain ⟨-, -, -, -, hwidth, hsoff, hslen, hin, -⟩ := h.registers
  simp only [startEffect, startedCursor, hwidth, hsoff, hslen, hin]

theorem smpStart_effect (s : State) : ∃ e, HasEffect .smpStart s e :=
  ⟨startEffect s, fun t ht => by rw [exec_smpStart, startEffect_congr s t ht]⟩

/-! ## Decoding -/

/-- A buffer too short for a header word or a sub-header fails before that word matters (42_decode.md R174). -/
theorem decodeFrame_congr (n : Nat) (w w' sub sub' : Half) (hw : 2 ≤ n → w' = w) (hsub : 4 ≤ n → sub' = sub) :
    decodeFrame n w' sub' = decodeFrame n w sub := by
  by_cases hempty : n < 2
  · rw [decodeFrame_empty n w' sub' hempty, decodeFrame_empty n w sub hempty]
  rw [hw (by omega)]
  by_cases hlong : 4 ≤ n
  · rw [hsub hlong]
  by_cases hdecl : n = declaredLength w
  · by_cases hbare : 6 ≤ typeNumber w
    · rw [decodeFrame_bare n w sub' (by omega) hdecl hbare, decodeFrame_bare n w sub (by omega) hdecl hbare]
    · rw [decodeFrame_truncated n w sub' (by omega) hdecl (by omega) (by omega),
        decodeFrame_truncated n w sub (by omega) hdecl (by omega) (by omega)]
  · rw [decodeFrame_mismatch n w sub' (by omega) hdecl, decodeFrame_mismatch n w sub (by omega) hdecl]

/-- An instruction that decodes has one effect if its header word and its sub-header are the same wherever
`IN[0..IN_LEN]` reaches them. -/
theorem decode_effect (i : Instr) (s : State) (w sub : State → Half)
    (hexec : ∀ t, exec i t = .next (decodeIn (w t) (sub t) t))
    (hw : ∀ t, SameInput s t → 2 ≤ s.inLen.toNat → w t = w s)
    (hsub : ∀ t, SameInput s t → 4 ≤ s.inLen.toNat → sub t = sub s) : ∃ e, HasEffect i s e := by
  have hframe (t : State) (ht : SameInput s t) :
      decodeFrame t.inLen.toNat (w t) (sub t) = decodeFrame s.inLen.toNat (w s) (sub s) := by
    rw [inLen_of_sameInput s t ht]
    exact decodeFrame_congr _ _ _ _ _ (hw t ht) (hsub t ht)
  cases hd : decodeFrame s.inLen.toNat (w s) (sub s) with
  | error c =>
    refine ⟨.results .zero c, fun t ht => ?_⟩
    rw [hexec, decodeIn, hframe t ht, hd]
    rfl
  | ok f =>
    refine ⟨.results (decodedRes s.inLen.toNat f) .ok, fun t ht => ?_⟩
    rw [hexec, decodeIn, hframe t ht, hd, ← inLen_of_sameInput s t ht]
    rfl

/-- A header word's instruction decodes its own word with the sub-header of IN (log 6). -/
theorem header_effect (i : Instr) (s : State) (w : Half)
    (hexec : ∀ t, exec i t = .next (decodeIn w (inHalf t 2) t)) : ∃ e, HasEffect i s e :=
  decode_effect i s (fun _ => w) (fun t => inHalf t 2) hexec (fun _ _ _ => rfl)
    (fun t ht hlen => inHalf_congr s t 2 ht hlen)

/-- An item code's instruction decodes its own code with the header word of IN (log 7). -/
theorem item_effect (i : Instr) (s : State) (c : Half)
    (hexec : ∀ t, exec i t = .next (decodeIn (inHalf t 0) c t)) : ∃ e, HasEffect i s e :=
  decode_effect i s (fun t => inHalf t 0) (fun _ => c) hexec (fun t ht hlen => inHalf_congr s t 0 ht hlen)
    (fun _ _ _ => rfl)

/-! ## Every instruction but SMP.NEXT -/

theorem exec_effect (i : Instr) (hi : i ≠ .smpNext) (s : State) : ∃ e, HasEffect i s e := by
  cases i
  case nop => exact ⟨.status .ok, fun _ _ => rfl⟩
  case illegal => exact ⟨.status .illegalCommand, fun _ _ => rfl⟩
  case hdrPack => exact hdrPack_effect s
  case hdrUnpack => exact hdrUnpack_effect s
  case encCtrl => exact (encoder_effect _ (.inl rfl) s).imp' _ fun _ => id
  case encData => exact (encoder_effect _ (.inr rfl) s).imp' _ fun _ => id
  case smpStart => exact smpStart_effect s
  case smpNext => exact absurd rfl hi
  case decode =>
    exact decode_effect _ s (fun t => inHalf t 0) (fun t => inHalf t 2) (fun _ => rfl)
      (fun t ht hlen => inHalf_congr s t 0 ht hlen) (fun t ht hlen => inHalf_congr s t 2 ht hlen)
  case setControlItem | currentControlItem | controlItemRange | ack | dataItem0 | dataItem1 | dataItem2 | dataItem3 =>
    exact header_effect _ s _ fun _ => rfl
  case itemNone | receiverState | receiverFrequency | rfFilter | adModes | iqOutputDataSampleRate =>
    exact item_effect _ s _ fun _ => rfl

end Sys2Proof.MemoryProofs
end

section
/-! A command run twice: what it writes is no operand of its own. -/

namespace Sys2Proof.MemoryProofs

open Sys2Proof.Machine Sys2Proof.Laws Sys2Proof.StateProofs

theorem encodeControl_params_le (t c : Word) (p : List Byte) (f : EncodedFrame) (h : encodeControl t c p = .ok f) :
    p.length ≤ 8192 := by
  by_contra hp
  by_cases ht : 3 < t.toNat
  · simp [encodeControl_type t c p ht] at h
  by_cases hc : c.toNat ∈ itemNumbers
  · simp [encodeControl_tooLong t c p (by omega) hc (by omega)] at h
  · simp [encodeControl_item t c p hc] at h

theorem encodeData_params_le (t : Word) (p : List Byte) (f : EncodedFrame) (h : encodeData t p = .ok f) :
    p.length ≤ 8192 := by
  have := encodeData_length t p f h
  omega

/-- A frame leaves the operands: one is made only when IN_LEN is so small that `IN[0..IN_LEN]` ends below OUT. -/
theorem finishEncode_sameInput (r : Except Status EncodedFrame) (s : State)
    (h : ∀ f, r = .ok f → (paramsOperand s).length ≤ 8192) : SameInput s (finishEncode r s) := by
  cases r with
  | error e => exact sameInput_of_update s e.code 0 .zero s.su s.mem fun _ _ => rfl
  | ok f =>
    have hlen : s.inLen.toNat ≤ 8192 := paramsOperand_length s ▸ h f rfl
    refine sameInput_of_update s _ _ _ _ _ fun j hj => finishEncode_outside f s _ (.inl ?_)
    simp only [inBase, outBase]
    omega

theorem sameInput_of_exec (i : Instr) (s t : State) (h : exec i s = .next t) : SameInput s t := by
  rcases exec_cases i s t h with ⟨r, c, rfl⟩ | ⟨u, c, -, rfl⟩ | ⟨-, rfl⟩ | ⟨-, rfl⟩
  · exact sameInput_of_update s c s.outLen r s.su s.mem fun _ _ => rfl
  · exact sameInput_of_update s c s.outLen s.res u s.mem fun _ _ => rfl
  · exact finishEncode_sameInput _ s (encodeControl_params_le _ _ _)
  · exact finishEncode_sameInput _ s (encodeData_params_le _ _)

/-- Settles O12: the operands survive the first run, so the second has the same effect, and an effect is idempotent. -/
theorem commandsAreIdempotent : Obligations.CommandsAreIdempotent := by
  intro i s t hi hwf ht
  obtain ⟨e, he⟩ := exec_effect i hi s
  have hfirst : t = e.apply s := eq_apply_of_hasEffect i s s t e he (sameInput_refl s) ht
  rw [he t (sameInput_of_exec i s t ht), hfirst, apply_apply e s hwf]

end Sys2Proof.MemoryProofs
end

section
/-! A command and the bytes of memory outside `IN[0..IN_LEN]`. -/

namespace Sys2Proof.MemoryProofs

open Sys2Proof.Machine Sys2Proof.Laws Sys2Proof.StateProofs

/-! ## SMP.NEXT -/

/-- What SMP.NEXT does: the checks in the order of 43_samples.md R199, then the lane at the cursor. -/
def nextEffect (s : State) : Effect :=
  if !s.su.armed then .status .notArmed
  else if s.su.pos = s.su.count then .status .sampleEnd
  else
    .cursor
      { s.su with sample := BitVec.ofNat 32 (leValue (s.inBytes (cursorBase s) s.su.bps)), pos := s.su.pos + 1 } .ok

theorem exec_smpNext (s : State) : exec .smpNext s = .next ((nextEffect s).apply s) := by
  simp only [exec, execSmpNext, nextEffect]
  split
  · rfl
  · split <;> rfl

/-- The lane that SMP.NEXT delivers lies within IN_LEN (43_samples.md R202). -/
theorem lane_within_inLen (s : State) (h : CursorGood s) (ha : s.su.armed = true) (hp : s.su.pos ≠ s.su.count) :
    cursorBase s + s.su.bps ≤ s.inLen.toNat := by
  have hlt : s.su.pos.toNat + 1 ≤ s.su.count.toNat :=
    Nat.lt_of_le_of_ne h.pos fun heq => hp (BitVec.eq_of_toNat_eq heq)
  have hend : (s.su.pos.toNat + 1) * s.su.bps ≤ s.su.count.toNat * s.su.bps := Nat.mul_le_mul_right _ hlt
  have hlanes := h.lanes ha
  rw [Nat.add_mul, Nat.one_mul] at hend
  rw [cursorBase]
  omega

theorem nextEffect_mem (s : State) (m : Memory) (h : CursorGood s) (hm : SameInput s { s with mem := m }) :
    nextEffect { s with mem := m } = nextEffect s := by
  unfold nextEffect
  split
  · rfl
  · next ha =>
    split
    · rfl
    · next hp =>
      have hin := lane_within_inLen s h (by simpa using ha) hp
      have hlane : ({ s with mem := m } : State).inBytes (cursorBase s) s.su.bps = s.inBytes (cursorBase s) s.su.bps :=
        inBytes_congr s _ _ _ fun j hj => hm.bytes _ (by omega)
      exact congrArg (fun bytes => Effect.cursor
        { s.su with sample := BitVec.ofNat 32 (leValue bytes), pos := s.su.pos + 1 } .ok) hlane

/-! ## Every instruction -/

/-- One effect in both states: SMP.NEXT's by the cursor's invariant, any other's by its operands. -/
theorem exec_effect_mem (i : Instr) (s : State) (m : Memory) (h : CursorGood s) (hm : SameInput s { s with mem := m }) :
    ∃ e : Effect, exec i s = .next (e.apply s) ∧
      exec i { s with mem := m } = .next (e.apply { s with mem := m }) := by
  by_cases hi : i = .smpNext
  · subst hi
    exact ⟨nextEffect s, exec_smpNext s, by rw [exec_smpNext, nextEffect_mem s m h hm]⟩
  · obtain ⟨e, he⟩ := exec_effect i hi s
    exact ⟨e, he s (sameInput_refl s), he _ hm⟩

/-- An encoder's frame in `OUT[0..OUT_LEN]` is the same whatever memory held before. -/
theorem finishEncode_outByte_mem (r : Except Status EncodedFrame) (s : State) (m : Memory) (j : Nat)
    (hj : j < (finishEncode r s).outLen.toNat) :
    (finishEncode r { s with mem := m }).outByte j = (finishEncode r s).outByte j := by
  cases r with
  | error e => exact absurd hj (Nat.not_lt_zero j)
  | ok f =>
    have hlen : j < f.bytes.length := Nat.lt_of_lt_of_le hj (ofNat_register_le (Nat.le_refl _))
    rw [finishEncode_outByte f _ j hlen, finishEncode_outByte f s j hlen]

/-- Settles O13: both states have the same operands, so one effect; SMP.NEXT reads a lane within IN_LEN. -/
theorem commandsIgnoreBytesBeyondTheValidLength : Obligations.CommandsIgnoreBytesBeyondTheValidLength := by
  intro i s m t u hcursor hbytes ht hu
  have hm : SameInput s { s with mem := m } := sameInput_of_update s s.status s.outLen s.res s.su m hbytes
  constructor
  · obtain ⟨e, het, heu⟩ := exec_effect_mem i s m hcursor hm
    rw [Host.Outcome.next.inj (ht.symm.trans het), Host.Outcome.next.inj (hu.symm.trans heu)]
    exact apply_mem e s m
  · intro hi j hj
    obtain ⟨r, hr⟩ := encoder_effect i hi s
    have ht' : t = finishEncode r s := eq_apply_of_hasEffect i s s t _ hr (sameInput_refl s) ht
    have hu' : u = finishEncode r { s with mem := m } := eq_apply_of_hasEffect i s _ u _ hr hm hu
    rw [ht'] at hj
    rw [ht', hu', finishEncode_outByte_mem r s m j hj]

end Sys2Proof.MemoryProofs
end

section
/-! Decoding and encoding undo each other (30_encoding.md R91, R95, R110, R111, R113), domain by domain. -/

namespace Sys2Proof.EncodingProofs

open Sys2Proof.Machine Sys2Proof.Laws Sys2Proof.StateProofs

/-! ## The decoder on the bytes of a word -/

theorem decodeBytes_command (v : Word) (rest : List Byte) :
    decodeBytes .command (bytesLe32 v ++ rest) = .ok (decodeCommand v, rest) := by
  simp [bytesLe32, decodeBytes, le32_bytesLe32]

theorem decodeBytes_header (w : Half) (rest : List Byte) :
    decodeBytes .header (bytesLe16 w ++ rest) = .ok (decodeHeader w, rest) := by
  simp [bytesLe16, decodeBytes, le16_bytesLe16]

theorem decodeBytes_item (c : Half) (i : Instr) (rest : List Byte) (h : decodeItem c = some i) :
    decodeBytes .item (bytesLe16 c ++ rest) = .ok (i, rest) := by
  simp [bytesLe16, decodeBytes, le16_bytesLe16, h]

/-- Bytes that decode begin with those of a word, and the word decodes to the instruction. -/
theorem decodeBytes_ok (d : Domain) (bs rest : List Byte) (i : Instr) (h : decodeBytes d bs = .ok (i, rest)) :
    (d = .command ∧ ∃ v, bs = bytesLe32 v ++ rest ∧ decodeCommand v = i) ∨
    (d = .header ∧ ∃ w, bs = bytesLe16 w ++ rest ∧ decodeHeader w = i) ∨
    (d = .item ∧ ∃ c, bs = bytesLe16 c ++ rest ∧ decodeItem c = some i) := by
  unfold decodeBytes at h
  split at h
  · next b0 b1 b2 b3 tail =>
    cases h
    exact .inl ⟨rfl, _, by rw [bytesLe32_le32]; rfl, rfl⟩
  · next b0 b1 tail =>
    cases h
    exact .inr (.inl ⟨rfl, _, by rw [bytesLe16_le16]; rfl, rfl⟩)
  · next b0 b1 tail =>
    split at h
    · next hitem =>
      cases h
      exact .inr (.inr ⟨rfl, _, by rw [bytesLe16_le16]; rfl, hitem⟩)
    · simp at h
  · simp at h

/-! ## Decode of encode -/

theorem encode_of_command (i : Instr) (h : i.domain = .command) : encode i = bytesLe32 (commandWord i) := by
  cases i
  case nop | hdrPack | hdrUnpack | encCtrl | encData | decode | smpStart | smpNext | illegal => rfl
  all_goals simp [Instr.domain] at h

/-- A frame type's encoding is a header word of that type, whose fields are the ones packed (R91, R93). -/
theorem encode_of_header (i : Instr) (h : i.domain = .header) :
    ∃ w, encode i = bytesLe16 w ∧ decodeHeader w = i := by
  cases i
  case setControlItem | currentControlItem | controlItemRange | ack | dataItem0 | dataItem1 | dataItem2 | dataItem3 =>
    exact ⟨_, rfl, by simp [decodeHeader]⟩
  all_goals simp [Instr.domain] at h

/-- An item code's encoding is its number in the closed set (R95). -/
theorem encode_of_item (i : Instr) (h : i.domain = .item) :
    ∃ c, encode i = bytesLe16 c ∧ decodeItem c = some i := by
  cases i
  case itemNone | receiverState | receiverFrequency | rfFilter | adModes | iqOutputDataSampleRate =>
    exact ⟨_, rfl, rfl⟩
  all_goals simp [Instr.domain] at h

/-- Settles O20: in each domain the encoding is the bytes of one word, and that word decodes to the instruction. -/
theorem decodeOfEncode : Obligations.DecodeOfEncode := by
  intro i rest hw
  cases hd : i.domain with
  | command => rw [encode_of_command i hd, decodeBytes_command, decodeCommand_commandWord i hd hw]
  | header =>
    obtain ⟨w, henc, hdec⟩ := encode_of_header i hd
    rw [henc, decodeBytes_header, hdec]
  | item =>
    obtain ⟨c, henc, hdec⟩ := encode_of_item i hd
    rw [henc, decodeBytes_item c i rest hdec]

/-! ## Encode of decode -/

/-- An instruction is well formed, of a domain, and encoded as the given bytes. -/
structure EncodedAs (d : Domain) (bytes : List Byte) (i : Instr) : Prop where
  wellFormed : i.wellFormed = true
  domain : i.domain = d
  encode : encode i = bytes

/-- The values below 8 are the eight opcodes, every other one is illegal (R111, R113). -/
theorem decodeCommand_encodedAs (v : Word) : EncodedAs .command (bytesLe32 v) (decodeCommand v) := by
  by_cases hillegal : 8 ≤ v.toNat
  · rw [decodeCommand_illegal v hillegal]
    exact ⟨decide_eq_true hillegal, rfl, rfl⟩
  · obtain ⟨n, hn, rfl⟩ : ∃ n, n < 8 ∧ v = BitVec.ofNat 32 n := ⟨v.toNat, by omega, by simp⟩
    interval_cases n <;> exact ⟨rfl, rfl, rfl⟩

/-- Each branch of `decodeHeader` packs the word's own type and length field again (R91). -/
theorem decodeHeader_encodedAs (w : Half) : EncodedAs .header (bytesLe16 w) (decodeHeader w) := by
  have hword (n : Nat) (h : (headerType w).toNat = n) :
      bytesLe16 (headerWord (BitVec.ofNat 3 n) (headerLen w)) = bytesLe16 w := by rw [headerWord_of_type w n h]
  have hlt := (headerType w).isLt
  unfold decodeHeader
  split
  case h_8 =>
    simp only [imp_false] at *
    exact ⟨rfl, rfl, hword 7 (by omega)⟩
  all_goals
    next htype => exact ⟨rfl, rfl, hword _ htype⟩

theorem decodeItem_encodedAs (c : Half) (i : Instr) (h : decodeItem c = some i) :
    EncodedAs .item (bytesLe16 c) i := by
  unfold decodeItem at h
  split at h
  case h_7 => simp at h
  all_goals
    next hcode =>
    cases h
    rw [half_eq_ofNat c _ hcode]
    exact ⟨rfl, rfl, rfl⟩

/-- Settles O21: the bytes are a word's, and the word is the encoding of what it decodes to. -/
theorem encodeOfDecode : Obligations.EncodeOfDecode := by
  intro d bs rest i h
  have hword : ∃ bytes, bs = bytes ++ rest ∧ EncodedAs d bytes i := by
    rcases decodeBytes_ok d bs rest i h with ⟨rfl, v, hbs, rfl⟩ | ⟨rfl, w, hbs, rfl⟩ | ⟨rfl, c, hbs, hitem⟩
    · exact ⟨_, hbs, decodeCommand_encodedAs v⟩
    · exact ⟨_, hbs, decodeHeader_encodedAs w⟩
    · exact ⟨_, hbs, decodeItem_encodedAs c i hitem⟩
  obtain ⟨bytes, hbs, hwf, hdomain, henc⟩ := hword
  exact ⟨hwf, hdomain, henc ▸ hbs⟩

/-- Settles O19: each word is evaluated. -/
theorem writtenOutWordsDecode : Obligations.WrittenOutWordsDecode := by
  unfold Obligations.WrittenOutWordsDecode
  decide

end Sys2Proof.EncodingProofs
end

section
/-! The item codes as DECODE reads them (42_decode.md R171, R172; log 7). -/

namespace Sys2Proof.EncodingProofs

open Sys2Proof.Machine Sys2Proof.Laws Sys2Proof.StateProofs

/-- Decoding a frame of types 0 to 4, of its declared length and with a known item code, in numbers. -/
theorem decodeIn_item (s : State) (w sub : Half) (h : 4 ≤ s.inLen.toNat) (hd : s.inLen.toNat = declaredLength w)
    (ht : typeNumber w ≤ 4) (hc : sub.toNat ∈ itemNumbers) :
    decodeIn w sub s =
      { s with
        res := resultsOf (kindNumber (typeNumber w)) (typeNumber w) sub.toNat 0 4 (s.inLen.toNat - 4) w.toNat
          (declaredLength w) (escapeNumber w)
        status := 0 } := by
  rw [decodeIn, decodeFrame_item _ w sub h hd ht hc, finishDecode_ok]
  simp only [decodedRes, resultsOf, headerType_kind, headerType_register, half_register, escapeNumber_eq]
  rfl

/-- Settles O17: each of the six is a member of the closed set, run as DECODE's effect with that sub-header. -/
theorem itemCodesDecode : Obligations.ItemCodesDecode := by
  intro s x hx w t n h hd ht
  have hcode : decodeItem (BitVec.ofNat 16 x.2) = some x.1 ∧ (BitVec.ofNat 16 x.2).toNat = x.2 ∧
      x.2 ∈ itemNumbers := by
    revert x
    decide
  obtain ⟨hitem, hnum, hmem⟩ := hcode
  rw [exec_of_decodeItem _ _ s hitem, decodeIn_item s w _ h hd ht (hnum.symm ▸ hmem), hnum, ← hd]

end Sys2Proof.EncodingProofs
end

section
/-! SUPPORT. Host accesses performed one after another, and what each access of `load` and `loopback` does
(30_encoding.md R115, R116). -/

namespace Sys2Proof.EncodingProofs

open Sys2Proof.Machine Sys2Proof.Laws Sys2Proof.StateProofs Sys2Proof.MemoryProofs

/-! ## Running accesses -/

theorem runAccesses_singleton (s : State) (x : HostAccess) : runAccesses s [x] = step { s with host := [x] } := by
  rw [runAccesses]
  cases step { s with host := [x] } <;> rfl

/-- A run of accesses goes on from where its first part ended. -/
theorem runAccesses_append (s t : State) (l m : List HostAccess) (h : runAccesses s l = .next t) :
    runAccesses s (l ++ m) = runAccesses t m := by
  induction l generalizing s with
  | nil =>
    cases h
    rfl
  | cons x l ih =>
    rw [runAccesses] at h
    rw [List.cons_append, runAccesses]
    cases hstep : step { s with host := [x] } with
    | next u => exact ih u (by simpa only [hstep] using h)
    | fault r => simp [hstep] at h
    | refused r => simp [hstep] at h

/-- A loop whose k-th pass ends, and takes what holds before pass k to what holds before pass k + 1. -/
theorem runAccesses_loop (s : State) (pass : Nat → List HostAccess) (P : Nat → State → Prop) (n : Nat) (h0 : P 0 s)
    (hpass : ∀ k t, k < n → P k t → ∃ u, runAccesses t (pass k) = .next u ∧ P (k + 1) u) :
    ∃ t, runAccesses s ((List.range n).flatMap pass) = .next t ∧ P n t := by
  induction n with
  | zero => exact ⟨s, rfl, h0⟩
  | succ n ih =>
    obtain ⟨t, hrun, ht⟩ := ih fun k t hk => hpass k t (by omega)
    obtain ⟨u, hlast, hu⟩ := hpass n t (by omega) ht
    refine ⟨u, ?_, hu⟩
    rw [List.range_succ, List.flatMap_append, runAccesses_append s t _ _ hrun, List.flatMap_singleton, hlast]

/-! ## Single accesses -/

theorem runAccesses_wrb (s : State) (i : Nat) (b : Byte) (hi : i < Config.inCap) :
    runAccesses s [wrbAccess i b] = .next (writeIn i b { s with host := [] }) := by
  have hbyte : (b.setWidth 32).setWidth 8 = b := by simp
  rw [runAccesses_singleton, wrbAccess, step_in_write _ i _ [] hi rfl, hbyte]

/-- `wr IN_LEN, v` of a length that fits IN (10_state.md R34, 20_memory.md R75). -/
theorem runAccesses_wr_inLen (s : State) (v : Word) (hv : v.toNat ≤ Config.inCap) :
    runAccesses s [wrAccess .inLen v] = .next { s with host := [], inLen := v, su := s.su.disarm } := by
  rw [runAccesses_singleton, wrAccess,
    step_register_write _ Reg.inLen.offset v [] (by decide) (by decide) (by decide) rfl, writeRegister_offset,
    State.writeReg, State.writeInLen, if_pos hv]
  rfl

/-- What `rd REG` leaves: only what the host has read differs. -/
theorem runAccesses_rd (s : State) (r : Reg) :
    ∃ d, runAccesses s [rdAccess r] = .next { s with host := [], readData := d } := by
  obtain ⟨hlt, h4⟩ := offset_lt_and_aligned r
  refine ⟨windowValue { s with host := [] } r.offset, ?_⟩
  rw [runAccesses_singleton, rdAccess, step_register_read _ r.offset [] hlt h4 rfl, readRegister_eq]
  rfl

theorem runAccesses_rdbOut (s : State) (i : Nat) (hi : i < s.outLen.toNat) (hcap : i < Config.outCap) :
    runAccesses s [rdbOutAccess i] = .next { s with host := [], readData := (s.outByte i).setWidth 32 } := by
  rw [runAccesses_singleton, rdbOutAccess, step_out_read _ i [] hcap rfl, readOut, if_pos hi]
  rfl

end Sys2Proof.EncodingProofs
end

section
/-! The accesses that fill IN from its start: `load` and `loopback` (30_encoding.md R116). -/

namespace Sys2Proof.EncodingProofs

open Sys2Proof.Machine Sys2Proof.Laws Sys2Proof.StateProofs Sys2Proof.MemoryProofs

/-! ## Filling IN -/

/-- IN[0..k] has been filled with the bytes of f; no other byte, STATUS, RES or OUT_LEN has changed. -/
structure Filled (f : Nat → Byte) (k : Nat) (s t : State) : Prop where
  bytes : ∀ i, i < k → t.inByte i = f i
  outside : sameBytesOutside inBase (inBase + k) s t
  status : t.status = s.status
  res : t.res = s.res
  outLen : t.outLen = s.outLen

theorem filled_zero (f : Nat → Byte) (s : State) : Filled f 0 s s :=
  ⟨fun i hi => absurd hi (Nat.not_lt_zero i), fun _ _ => rfl, rfl, rfl, rfl⟩

/-- Reading, disarming, IN_LEN and the pending accesses do not count. -/
theorem filled_update (f : Nat → Byte) (k : Nat) (s t : State) (h : Filled f k s t) (w : List HostAccess) (d n : Word)
    (u : Cursor) : Filled f k s { t with host := w, readData := d, inLen := n, su := u } :=
  ⟨h.bytes, h.outside, h.status, h.res, h.outLen⟩

/-- The next byte of IN written. -/
theorem filled_writeIn (f : Nat → Byte) (k : Nat) (s t : State) (h : Filled f k s t) :
    Filled f (k + 1) s (writeIn k (f k) t) := by
  have hother := writeIn_outside t k (f k)
  refine ⟨fun i hi => ?_, fun a ha => ?_, h.status, h.res, h.outLen⟩
  · rcases Nat.lt_succ_iff_lt_or_eq.1 hi with hlt | rfl
    · exact (hother (inBase + i) (by omega)).trans (h.bytes i hlt)
    · exact inByte_writeIn_same t i (f i)
  · exact (hother a (by omega)).trans (h.outside a (by omega))

/-- `wrb IN[k]` of the next byte. -/
theorem runAccesses_wrb_filled (f : Nat → Byte) (k : Nat) (s t : State) (hk : k < Config.inCap) (h : Filled f k s t) :
    ∃ u, runAccesses t [wrbAccess k (f k)] = .next u ∧ Filled f (k + 1) s u :=
  ⟨_, runAccesses_wrb t k (f k) hk, filled_writeIn f k s _ (filled_update f k s t h [] t.readData t.inLen t.su)⟩

/-- The last access of both pseudo-instructions: IN_LEN is written, which disarms the cursor (20_memory.md R75). -/
theorem runAccesses_wr_inLen_filled (f : Nat → Byte) (k : Nat) (s t : State) (v : Word) (hv : v.toNat ≤ Config.inCap)
    (h : Filled f k s t) :
    ∃ u, runAccesses t [wrAccess .inLen v] = .next u ∧ Filled f k s u ∧ u.inLen = v ∧ u.su.armed = false :=
  ⟨_, runAccesses_wr_inLen t v hv, filled_update f k s t h [] t.readData v t.su.disarm, rfl, disarm_armed t.su⟩

/-! ## load -/

theorem loadAccesses_eq (bs : List Byte) :
    loadAccesses bs =
      ((List.range bs.length).flatMap fun i => [wrbAccess i (bs.getD i 0)]) ++
        [wrAccess .inLen (BitVec.ofNat 32 bs.length)] := by
  rw [loadAccesses, List.map_eq_flatMap]

theorem inBytes_of_filled (bs : List Byte) (s t : State) (h : Filled (fun i => bs.getD i 0) bs.length s t) :
    t.inBytes 0 bs.length = bs := by
  refine List.ext_getElem (inBytes_length t 0 _) fun i _ hi => ?_
  rw [inBytes_getElem, Nat.zero_add, h.bytes i hi, List.getD_eq_getElem bs 0 hi]

/-- Settles O53: the loop over the bytes keeps `Filled`, and the write to IN_LEN ends it. -/
theorem loadFillsIn : Obligations.LoadFillsIn := by
  intro s bs hfit
  have hlen : (BitVec.ofNat 32 bs.length : Word).toNat = bs.length := by
    have := inCap_bounds
    rw [BitVec.toNat_ofNat]
    exact Nat.mod_eq_of_lt (by omega)
  obtain ⟨t, hloop, ht⟩ := runAccesses_loop s (fun i => [wrbAccess i (bs.getD i 0)])
    (fun k => Filled (fun i => bs.getD i 0) k s) bs.length (filled_zero _ s)
    fun k t hk => runAccesses_wrb_filled _ k s t (by omega)
  obtain ⟨u, hlast, hu, hinLen, harmed⟩ := runAccesses_wr_inLen_filled _ _ s t (BitVec.ofNat 32 bs.length) (by omega) ht
  refine ⟨u, ?_, inBytes_of_filled bs s u hu, by rw [hinLen, hlen], harmed, hu.outside, hu.status, hu.res, hu.outLen⟩
  rw [loadAccesses_eq, runAccesses_append s t _ _ hloop, hlast]

/-! ## loopback -/

/-- One pass of loopback's loop: a byte of OUT is read and written to IN. -/
theorem runAccesses_copy_filled (f : Nat → Byte) (k : Nat) (s t : State) (hk : k < s.outLen.toNat)
    (hcap : s.outLen.toNat ≤ Config.outCap) (h : Filled f k s t) :
    ∃ u, runAccesses t [rdbOutAccess k, wrbAccess k (f k)] = .next u ∧ Filled f (k + 1) s u := by
  have hin := inCap_bounds
  have hout : k < Config.outCap := by omega
  have hread := runAccesses_rdbOut t k (by rw [h.outLen]; exact hk) hout
  obtain ⟨u, hwrite, hu⟩ := runAccesses_wrb_filled f k s _ (by simp only [Config.outCap] at hout; omega)
    (filled_update f k s t h [] ((t.outByte k).setWidth 32) t.inLen t.su)
  exact ⟨u, (runAccesses_append t _ [_] [_] hread).trans hwrite, hu⟩

theorem outByte_of_filled (f : Nat → Byte) (k : Nat) (s t : State) (hk : k ≤ Config.inCap) (h : Filled f k s t)
    (i : Nat) : t.outByte i = s.outByte i :=
  h.outside (outBase + i) (.inr (by have := inCap_bounds; simp only [inBase, outBase]; omega))

/-- Settles O54: the frame in OUT fits IN, the loop over its bytes keeps `Filled`, and the write to IN_LEN ends it. -/
theorem loopbackCopiesOutToIn : Obligations.LoopbackCopiesOutToIn := by
  intro s hs
  have hcap : s.outLen.toNat ≤ Config.outCap := by
    rcases hs.outLen with h0 | ⟨-, hle⟩
    · rw [h0]; exact Nat.zero_le _
    · exact hle
  have hfit : s.outLen.toNat ≤ Config.inCap := hcap.trans (le_trans (by decide) inCap_bounds.1)
  obtain ⟨d, hfirst⟩ := runAccesses_rd s .outLen
  obtain ⟨t, hloop, ht⟩ := runAccesses_loop { s with host := [], readData := d }
    (fun i => [rdbOutAccess i, wrbAccess i (s.outByte i)]) (fun k => Filled s.outByte k s) s.outLen.toNat
    (filled_update _ 0 s s (filled_zero _ s) [] d s.inLen s.su)
    fun k t hk => runAccesses_copy_filled s.outByte k s t hk hcap
  obtain ⟨u, hlast, hu, hinLen, harmed⟩ := runAccesses_wr_inLen_filled _ _ s t s.outLen hfit ht
  refine ⟨u, ?_, hinLen, hu.outLen, hu.bytes, outByte_of_filled _ _ s u hfit hu, harmed, hu.status, hu.res⟩
  calc runAccesses s (loopbackAccesses s)
      = runAccesses { s with host := [], readData := d }
          (((List.range s.outLen.toNat).flatMap fun i => [rdbOutAccess i, wrbAccess i (s.outByte i)]) ++
            [wrAccess .inLen s.outLen]) := runAccesses_append s _ [_] _ hfirst
    _ = runAccesses t [wrAccess .inLen s.outLen] := runAccesses_append _ t _ _ hloop
    _ = .next u := hlast

end Sys2Proof.EncodingProofs
end

section
/-! The header family: `pack_header` and `unpack_header` undo each other, and HDR.PACK and HDR.UNPACK are those two
functions of the operand registers (40_header.md R130 to R136). -/

namespace Sys2Proof.EncodingProofs

open Sys2Proof.Machine Sys2Proof.Laws

/-! ## Packing and unpacking -/

/-- The declared length of a word by its two fields: the length field, but for the escape. -/
theorem unpackHeader_headerWord_decl (t : FrameType) (len : LengthField) :
    (unpackHeader (headerWord t len)).decl = if 4 ≤ t.toNat ∧ len.toNat = 0 then 8194 else len.toNat := by
  obtain ⟨-, -, hdecl, -⟩ := headerWord_numbers t len
  rw [declaredLength_eq, hdecl]

theorem unpackHeader_headerWord_esc (t : FrameType) (len : LengthField) :
    (unpackHeader (headerWord t len)).esc = decide (4 ≤ t.toNat ∧ len.toNat = 0) := by
  rw [unpackHeader_esc, ← headerType_toNat, ← headerLen_toNat, headerType_headerWord, headerLen_headerWord]

/-- A length field holds every length up to 8191 as it is. -/
theorem lengthField_toNat (l : Nat) (h : l ≤ 8191) : (BitVec.ofNat 13 l).toNat = l := by
  rw [BitVec.toNat_ofNat]
  exact Nat.mod_eq_of_lt (by omega)

/-- Packing a length of 1..8191 and unpacking it: no escape stands in for it. -/
theorem unpackHeader_decl_of_field (t : FrameType) (l : Nat) (hlo : 1 ≤ l) (hhi : l ≤ 8191) :
    (unpackHeader (headerWord t (BitVec.ofNat 13 l))).decl = l := by
  rw [unpackHeader_headerWord_decl, lengthField_toNat l hhi, if_neg (by omega)]

/-- Packing the type and the declared length of a word gives the word: the escape is packed from 8194, and from no
other length. -/
theorem packHeader_decl (t : FrameType) (len : LengthField) :
    ∃ p, packHeader t (unpackHeader (headerWord t len)).decl = .ok p ∧ p.word = headerWord t len := by
  rw [unpackHeader_headerWord_decl]
  split
  · next hesc =>
    have hlen : len = 0 := BitVec.eq_of_toNat_eq hesc.2
    exact ⟨_, packHeader_escape t hesc.1, by rw [hlen]⟩
  · have := len.isLt
    exact ⟨_, packHeader_field t len.toNat (by omega), by rw [BitVec.ofNat_toNat, BitVec.setWidth_eq]⟩

/-- Settles O23: each packed word is a `headerWord`, and its fields are the ones packed. -/
theorem headerRoundTrips : Obligations.HeaderRoundTrips := by
  refine ⟨fun t l hlo hhi => ?field, fun t ht => ?escape, fun t => ?zero, fun w => ?word⟩
  case field =>
    exact ⟨_, packHeader_field t l hhi, headerType_headerWord t _, unpackHeader_decl_of_field t l hlo hhi⟩
  case escape =>
    refine ⟨_, packHeader_escape t ht, headerType_headerWord t 0, ?_, ?_⟩
    · simp [unpackHeader_headerWord_decl, ht]
    · simp [unpackHeader_headerWord_esc, ht]
  case zero =>
    exact ⟨_, packHeader_field t 0 (by omega), by simp [unpackHeader_headerWord_decl]⟩
  case word =>
    have hpack := packHeader_decl (headerType w) (headerLen w)
    rwa [headerWord_fields] at hpack

/-- Settles O22: a word is the `headerWord` of its fields, and the fields of a `headerWord` are its arguments. -/
theorem headerFieldsAreExact : Obligations.HeaderFieldsAreExact := by
  refine ⟨fun w => ⟨(headerWord_fields w).symm, headerWord_toNat _ _⟩, fun t raw => ⟨headerWord t raw, by simp, ?unique⟩⟩
  rintro w ⟨rfl, rfl⟩
  exact (headerWord_fields w).symm

/-! ## HDR.PACK -/

theorem exec_hdrPack (s : State) : exec .hdrPack s = .next (finishPack (packOperands s) s) := rfl

/-- HDR.PACK that raises: RES 0 and the code. -/
theorem exec_hdrPack_error (s : State) (e : Status) (h : packOperands s = .error e) :
    exec .hdrPack s = .next (afterRaise e.code s) := by
  rw [exec_hdrPack, h, finishPack_error]

/-- RES after a header of these two fields has been produced, in numbers. -/
theorem packedRes_headerWord (t : FrameType) (len : LengthField) (esc : Bool) :
    packedRes ⟨headerWord t len, esc⟩ = resultsOf 0 0 0 0 0 0 (len.toNat + t.toNat * 8192) 0 esc.toNat := by
  have hesc : flagWord esc = BitVec.ofNat 32 esc.toNat := by cases esc <;> rfl
  rw [packedRes, half_register, headerWord_toNat, hesc]
  rfl

/-- HDR.PACK that packs: R_HDR and R_ESC, the rest of RES 0, and STATUS OK. -/
theorem exec_hdrPack_ok (s : State) (len : LengthField) (esc : Bool) (ht : s.frameType.toNat ≤ 7)
    (h : packOperands s = .ok ⟨headerWord (typeOperand s) len, esc⟩) :
    exec .hdrPack s = .next
      { s with res := resultsOf 0 0 0 0 0 0 (len.toNat + s.frameType.toNat * 8192) 0 esc.toNat, status := 0 } := by
  rw [exec_hdrPack, h, finishPack_ok, packedRes_headerWord, typeOperand_toNat s ht]

/-- Settles O3: the classes of `packHeader` at TYPE and s32(TLEN), once TYPE has been checked. -/
theorem headerPackResults : Obligations.HeaderPackResults := by
  refine ⟨rfl, fun s => ⟨fun ht => ?type, fun ht hl => ?negative, fun ht hlo hhi => ?field, fun hdata ht hl => ?escape,
    fun ht hhi hesc => ?tooLong⟩⟩
  case type => exact exec_hdrPack_error s .invalidArgument (packOperands_type s ht)
  all_goals have hpack := packOperands_legal s ht
  case negative => exact exec_hdrPack_error s .invalidArgument (hpack.trans (packHeader_negative _ _ hl))
  case field =>
    obtain ⟨n, hn⟩ := Int.eq_ofNat_of_zero_le hlo
    have hfit : n ≤ 8191 := by omega
    rw [hn, packHeader_field _ n hfit] at hpack
    rw [exec_hdrPack_ok s _ _ ht hpack, lengthField_toNat n hfit, hn]
    rfl
  case escape =>
    have hdata' : 4 ≤ (typeOperand s).toNat := by rwa [typeOperand_toNat s ht]
    rw [hl] at hpack
    rw [exec_hdrPack_ok s 0 true ht (hpack.trans (packHeader_escape _ hdata'))]
    simp
  case tooLong =>
    obtain ⟨n, hn⟩ := Int.eq_ofNat_of_zero_le (show 0 ≤ s.tlen.toInt by omega)
    have hlong := packHeader_tooLong (typeOperand s) n (by omega) (by rw [typeOperand_toNat s ht]; omega)
    exact exec_hdrPack_error s .encodeTooLong (by rw [hpack, hn, hlong])

/-! ## HDR.UNPACK -/

theorem exec_hdrUnpack (s : State) : exec .hdrUnpack s = execHdrUnpack s := rfl

/-- HDR.UNPACK of a value wider than a header word: RES 0 and INVALID_ARGUMENT. -/
theorem exec_hdrUnpack_error (s : State) (h : 0xFFFF < s.hdr.toNat) :
    exec .hdrUnpack s = .next (afterRaise 0x07 s) := by
  rw [exec_hdrUnpack, execHdrUnpack, if_pos h]
  rfl

/-- HDR.UNPACK of a header word: its fields in RES, and STATUS OK. -/
theorem exec_hdrUnpack_ok (s : State) (h : s.hdr.toNat ≤ 0xFFFF) :
    exec .hdrUnpack s = .next { s with res := unpackedRes (headerOperand s), status := 0 } := by
  rw [exec_hdrUnpack, execHdrUnpack, if_neg (by omega)]
  rfl

/-- RES after HDR.UNPACK, in the spec's numbers of the word. -/
theorem unpackedRes_eq (w : Half) :
    unpackedRes w =
      resultsOf (kindNumber (typeNumber w)) (typeNumber w) 0 0 0 0 w.toNat (declaredLength w) (escapeNumber w) := by
  simp only [unpackedRes, unpackHeader_frameType, headerType_kind, headerType_register, half_register,
    declaredLength_eq, escapeNumber_eq]
  rfl

theorem headerOperand_toNat (s : State) (h : s.hdr.toNat ≤ 0xFFFF) : (headerOperand s).toNat = s.hdr.toNat := by
  rw [headerOperand, BitVec.toNat_setWidth]
  exact Nat.mod_eq_of_lt (by omega)

/-- Settles O4: HDR is refused, or it is its own low half and unpacks to that word's numbers. -/
theorem headerUnpackResults : Obligations.HeaderUnpackResults := by
  refine ⟨rfl, fun s => ⟨exec_hdrUnpack_error s, fun h => ?_⟩⟩
  rw [exec_hdrUnpack_ok s h, unpackedRes_eq, typeNumber, headerOperand_toNat s h]
  rfl

end Sys2Proof.EncodingProofs
end

section
/-! The encoders (41_encode.md R150 to R157): each raises, or leaves a frame in OUT whose header carries TYPE and the
frame's length, and whose remaining bytes are the payload it was given. -/

namespace Sys2Proof.EncodingProofs

open Sys2Proof.Machine Sys2Proof.Laws Sys2Proof.StateProofs Sys2Proof.MemoryProofs

/-! ## Two bytes before others -/

theorem bytesLe16_append_zero (v : Half) (p : List Byte) (h : 0 < (bytesLe16 v ++ p).length) :
    ((bytesLe16 v ++ p)[0]).toNat = v.toNat % 256 := by
  simp [bytesLe16_eq]

theorem bytesLe16_append_one (v : Half) (p : List Byte) (h : 1 < (bytesLe16 v ++ p).length) :
    ((bytesLe16 v ++ p)[1]).toNat = v.toNat / 256 := by
  have hhigh : v.toNat / 256 < 256 := by omega
  simp [bytesLe16_eq, Nat.mod_eq_of_lt hhigh]

theorem bytesLe16_append_add_two (v : Half) (p : List Byte) (i : Nat) (hi : i < p.length)
    (h : 2 + i < (bytesLe16 v ++ p).length) : (bytesLe16 v ++ p)[2 + i] = p[i] := by
  rw [List.getElem_append_right (by rw [bytesLe16_length]; omega)]
  simp only [bytesLe16_length, Nat.add_sub_cancel_left]

/-! ## The frame an encoder makes -/

/-- The number in the length field of a frame of a total length: 0 is the escape for 8194 (41_encode.md R155). -/
def fieldNumber (total : Nat) : Nat := if total = 8194 then 0 else total

/-- The header word of a frame of a total length. -/
def frameHeader (t : FrameType) (total : Nat) : Half := headerWord t (BitVec.ofNat 13 (fieldNumber total))

/-- A header for a payload, and the payload: the frames both encoders make. The payload of a control frame begins with
its item code. -/
def framed (t : FrameType) (payload : List Byte) : EncodedFrame :=
  ⟨bytesLe16 (frameHeader t (2 + payload.length)) ++ payload,
    ⟨frameHeader t (2 + payload.length), decide (2 + payload.length = 8194)⟩⟩

/-- The payload of ENC.CTRL: the item code, then the params. -/
def controlPayload (c : Word) (p : List Byte) : List Byte := bytesLe16 (c.setWidth 16) ++ p

/-- A total length that header packing takes, the escaped one included (40_header.md R131). -/
def fitsHeader (total : Nat) : Prop := total ≤ 8191 ∨ total = 8194

theorem fieldNumber_of_le (total : Nat) (h : total ≤ 8191) : fieldNumber total = total := if_neg (by omega)

theorem fieldNumber_escape : fieldNumber 8194 = 0 := rfl

theorem fieldNumber_le (total : Nat) (h : fitsHeader total) : fieldNumber total ≤ 8191 := by
  rcases h with hle | rfl
  · rwa [fieldNumber_of_le total hle]
  · decide

theorem frameHeader_toNat (t : FrameType) (total : Nat) (h : fitsHeader total) :
    (frameHeader t total).toNat = fieldNumber total + t.toNat * 8192 := by
  rw [frameHeader, headerWord_toNat, lengthField_toNat _ (fieldNumber_le total h)]

theorem controlPayload_length (c : Word) (p : List Byte) : (controlPayload c p).length = 2 + p.length := by
  rw [controlPayload, List.length_append, bytesLe16_length]

theorem framed_length (t : FrameType) (payload : List Byte) :
    (framed t payload).bytes.length = 2 + payload.length := by
  rw [framed, List.length_append, bytesLe16_length]

theorem framed_byte_zero (t : FrameType) (payload : List Byte) (h : 0 < (framed t payload).bytes.length) :
    ((framed t payload).bytes[0]).toNat = (frameHeader t (2 + payload.length)).toNat % 256 :=
  bytesLe16_append_zero _ _ h

theorem framed_byte_one (t : FrameType) (payload : List Byte) (h : 1 < (framed t payload).bytes.length) :
    ((framed t payload).bytes[1]).toNat = (frameHeader t (2 + payload.length)).toNat / 256 :=
  bytesLe16_append_one _ _ h

theorem framed_byte_add_two (t : FrameType) (payload : List Byte) (i : Nat) (hi : i < payload.length)
    (h : 2 + i < (framed t payload).bytes.length) : (framed t payload).bytes[2 + i] = payload[i] :=
  bytesLe16_append_add_two _ payload i hi h

/-! ## What the encoders' functions answer -/

theorem encodeControl_framed (t c : Word) (p : List Byte) (ht : t.toNat ≤ 3) (hc : c.toNat ∈ itemNumbers)
    (hp : 4 + p.length ≤ 8191) :
    encodeControl t c p = .ok (framed (t.setWidth 3) (controlPayload c p)) := by
  have hlen : 2 + (controlPayload c p).length = 4 + p.length := by rw [controlPayload_length]; omega
  rw [encodeControl_ok t c p ht hc hp, framed, frameHeader, hlen, fieldNumber_of_le _ hp, controlPayload,
    List.append_assoc, decide_eq_false (by omega)]

theorem encodeData_framed (t : Word) (p : List Byte) (hlo : 4 ≤ t.toNat) (hhi : t.toNat ≤ 7)
    (hs : ¬((t.toNat = 4 ∨ t.toNat = 5) ∧ p.length < 2)) (hp : fitsHeader (2 + p.length)) :
    encodeData t p = .ok (framed (t.setWidth 3) p) := by
  rcases hp with hfield | hesc
  · rw [encodeData_ok t p hlo hhi hs hfield, framed, frameHeader, fieldNumber_of_le _ hfield,
      decide_eq_false (by omega)]
  · rw [encodeData_escape t p hlo hhi hesc, framed, frameHeader, hesc, fieldNumber_escape]
    rfl

/-- `encode_control` raises, or all its checks pass and it frames ITEM and the params. -/
theorem encodeControl_cases (t c : Word) (p : List Byte) :
    (∃ e : Status, e ≠ .ok ∧ encodeControl t c p = .error e) ∨
    (t.toNat ≤ 3 ∧ 4 + p.length ≤ 8191 ∧ encodeControl t c p = .ok (framed (t.setWidth 3) (controlPayload c p))) := by
  by_cases ht : 3 < t.toNat
  · exact .inl ⟨_, by decide, encodeControl_type t c p ht⟩
  by_cases hc : c.toNat ∈ itemNumbers
  · by_cases hp : 8191 < 4 + p.length
    · exact .inl ⟨_, by decide, encodeControl_tooLong t c p (by omega) hc hp⟩
    · exact .inr ⟨by omega, by omega, encodeControl_framed t c p (by omega) hc (by omega)⟩
  · exact .inl ⟨_, by decide, encodeControl_item t c p hc⟩

/-- `encode_data` raises, or all its checks pass and it frames the params. -/
theorem encodeData_cases (t : Word) (p : List Byte) :
    (∃ e : Status, e ≠ .ok ∧ encodeData t p = .error e) ∨
    (4 ≤ t.toNat ∧ t.toNat ≤ 7 ∧ ¬((t.toNat = 4 ∨ t.toNat = 5) ∧ p.length < 2) ∧ fitsHeader (2 + p.length) ∧
      encodeData t p = .ok (framed (t.setWidth 3) p)) := by
  by_cases ht : t.toNat < 4 ∨ 7 < t.toNat
  · exact .inl ⟨_, by decide, encodeData_type t p ht⟩
  by_cases hs : (t.toNat = 4 ∨ t.toNat = 5) ∧ p.length < 2
  · exact .inl ⟨_, by decide, encodeData_short t p hs.1 hs.2⟩
  by_cases hp : fitsHeader (2 + p.length)
  · exact .inr ⟨by omega, by omega, hs, hp, encodeData_framed t p (by omega) (by omega) hs hp⟩
  · obtain ⟨hlong, hesc⟩ := not_or.1 hp
    exact .inl ⟨_, by decide, encodeData_tooLong t p (by omega) (by omega) (by omega) hesc⟩

/-! ## The commands -/

theorem exec_encCtrl (s : State) :
    exec .encCtrl s = .next (finishEncode (encodeControl s.frameType s.item (paramsOperand s)) s) := rfl

theorem exec_encData (s : State) :
    exec .encData s = .next (finishEncode (encodeData s.frameType (paramsOperand s)) s) := rfl

theorem exec_encCtrl_error (s : State) (e : Status)
    (h : encodeControl s.frameType s.item (paramsOperand s) = .error e) :
    exec .encCtrl s = .next (afterEncodeRaise e.code s) := by
  rw [exec_encCtrl, h, finishEncode_error]

theorem exec_encData_error (s : State) (e : Status) (h : encodeData s.frameType (paramsOperand s) = .error e) :
    exec .encData s = .next (afterEncodeRaise e.code s) := by
  rw [exec_encData, h, finishEncode_error]

/-- The state u is s with the payload framed in OUT by an encoder: the whole next state (41_encode.md R152, R154). -/
structure FrameWritten (s u : State) (payload : List Byte) : Prop where
  state : u = { s with
    res := resultsOf 0 0 0 0 0 0 (fieldNumber (2 + payload.length) + s.frameType.toNat * 8192) 0
      (if 2 + payload.length = 8194 then 1 else 0)
    outLen := BitVec.ofNat 32 (2 + payload.length)
    mem := u.mem
    status := 0 }
  byteZero : (u.outByte 0).toNat = fieldNumber (2 + payload.length) % 256
  byteOne : (u.outByte 1).toNat = s.frameType.toNat * 32 + fieldNumber (2 + payload.length) / 256
  rest : ∀ i (h : i < payload.length), u.outByte (2 + i) = payload[i]
  outside : sameBytesOutside outBase (outBase + (2 + payload.length)) s u

theorem packedRes_framed (t : FrameType) (payload : List Byte) (h : fitsHeader (2 + payload.length)) :
    packedRes (framed t payload).header =
      resultsOf 0 0 0 0 0 0 (fieldNumber (2 + payload.length) + t.toNat * 8192) 0
        (if 2 + payload.length = 8194 then 1 else 0) := by
  have hesc : (decide (2 + payload.length = 8194)).toNat = if 2 + payload.length = 8194 then 1 else 0 := by
    rw [Bool.toNat, Bool.cond_decide]
  rw [framed, frameHeader, packedRes_headerWord, lengthField_toNat _ (fieldNumber_le _ h), hesc]

/-- An encoder that has framed a payload under its own TYPE leaves that frame in OUT. -/
theorem finishEncode_frameWritten (s : State) (payload : List Byte) (ht : s.frameType.toNat ≤ 7)
    (hp : fitsHeader (2 + payload.length)) :
    FrameWritten s (finishEncode (.ok (framed (typeOperand s) payload)) s) payload := by
  have hlen := framed_length (typeOperand s) payload
  have hword := frameHeader_toNat (typeOperand s) _ hp
  have htype := typeOperand_toNat s ht
  have hfield := fieldNumber_le _ hp
  refine ⟨?state, ?byteZero, ?byteOne, fun i hi => ?rest, ?outside⟩
  case state => rw [finishEncode_ok, hlen, packedRes_framed _ payload hp, htype]
  case byteZero => rw [finishEncode_outByte _ s 0 (by omega), framed_byte_zero]; omega
  case byteOne => rw [finishEncode_outByte _ s 1 (by omega), framed_byte_one]; omega
  case rest => rw [finishEncode_outByte _ s _ (by omega), framed_byte_add_two _ payload i hi]
  case outside => exact hlen ▸ finishEncode_outside _ s

theorem controlPayload_fits (s : State) (hn : 4 + s.inLen.toNat ≤ 8191) :
    2 + (controlPayload s.item (paramsOperand s)).length = 4 + s.inLen.toNat ∧
      fitsHeader (2 + (controlPayload s.item (paramsOperand s)).length) := by
  have hlen : 2 + (controlPayload s.item (paramsOperand s)).length = 4 + s.inLen.toNat := by
    rw [controlPayload_length, paramsOperand_length]; omega
  exact ⟨hlen, .inl (by omega)⟩

/-! ## ENC.CTRL -/

theorem itemNumbers_lt (c : Nat) (h : c ∈ itemNumbers) : c < 65536 := by
  have hall : ∀ n ∈ itemNumbers, n < 65536 := by decide
  exact hall c h

theorem itemHalf_toNat (c : Word) (h : c.toNat ∈ itemNumbers) : (c.setWidth 16 : Half).toNat = c.toNat := by
  rw [BitVec.toNat_setWidth]
  exact Nat.mod_eq_of_lt (itemNumbers_lt _ h)

/-- The bytes of a control payload: the item code least significant byte first, then the params. -/
theorem controlPayload_bytes (c : Word) (p : List Byte) (hc : c.toNat ∈ itemNumbers) :
    (∀ h, ((controlPayload c p)[0]'h).toNat = c.toNat % 256) ∧
    (∀ h, ((controlPayload c p)[1]'h).toNat = c.toNat / 256) ∧
    ∀ i (hi : i < p.length) h, (controlPayload c p)[2 + i]'h = p[i] := by
  refine ⟨fun h => ?_, fun h => ?_, bytesLe16_append_add_two _ p⟩
  · exact itemHalf_toNat c hc ▸ bytesLe16_append_zero _ p h
  · exact itemHalf_toNat c hc ▸ bytesLe16_append_one _ p h

/-- Settles O5: the classes of `encode_control` in their order; the last frames ITEM and the params. -/
theorem controlEncodeResults : Obligations.ControlEncodeResults := by
  refine ⟨rfl, fun s => ⟨fun ht => ?type, fun _ hc => ?item, fun ht hc hn => ?tooLong, fun ht hc hn => ?frame⟩⟩
  case type => exact exec_encCtrl_error s .invalidArgument (encodeControl_type _ _ _ ht)
  case item => exact exec_encCtrl_error s .invalidArgument (encodeControl_item _ _ _ hc)
  case tooLong =>
    exact exec_encCtrl_error s .encodeTooLong
      (encodeControl_tooLong _ _ _ ht hc (by rwa [paramsOperand_length]))
  case frame =>
    have hframe := encodeControl_framed s.frameType s.item (paramsOperand s) ht hc (by rwa [paramsOperand_length])
    obtain ⟨htotal, hfits⟩ := controlPayload_fits s hn
    obtain ⟨hstate, hzero, hone, hrest, houtside⟩ := finishEncode_frameWritten s _ (by omega) hfits
    obtain ⟨hcode, hcode', hparams⟩ := controlPayload_bytes s.item (paramsOperand s) hc
    rw [htotal, fieldNumber_of_le _ hn] at hzero hone
    rw [htotal, fieldNumber_of_le _ hn, if_neg (by omega)] at hstate
    rw [htotal] at houtside
    refine ⟨_, by rw [exec_encCtrl, hframe]; rfl, hstate, hzero, hone, ?low, ?high, fun i hi => ?params, houtside⟩
    case low => rw [hrest 0 (by omega), hcode]
    case high => rw [hrest 1 (by omega), hcode']
    case params =>
      rw [show 4 + i = 2 + (2 + i) by omega, hrest (2 + i) (by omega),
        hparams i (by rwa [paramsOperand_length]), paramsOperand_getElem]

/-! ## ENC.DATA -/

/-- Settles O6: the classes of `encode_data` in their order; the last frames the params, with or without the escape. -/
theorem dataEncodeResults : Obligations.DataEncodeResults := by
  refine ⟨rfl, fun s => ⟨fun ht => ?type, fun ht hn => ?short, fun hlo hhi hn hesc => ?tooLong,
    fun hlo hhi hs hn => ?frame⟩⟩
  case type => exact exec_encData_error s .invalidArgument (encodeData_type _ _ ht)
  all_goals have hlen := paramsOperand_length s
  case short => exact exec_encData_error s .invalidArgument (encodeData_short _ _ ht (by rwa [hlen]))
  case tooLong =>
    exact exec_encData_error s .encodeTooLong (encodeData_tooLong _ _ hlo hhi (by rwa [hlen]) (by rwa [hlen]))
  case frame =>
    have hframe := encodeData_framed s.frameType (paramsOperand s) hlo hhi (by rwa [hlen]) (by rwa [hlen])
    obtain ⟨hstate, hzero, hone, hrest, houtside⟩ := finishEncode_frameWritten s (paramsOperand s) hhi (by rwa [hlen])
    rw [hlen] at hstate hzero hone houtside
    refine ⟨_, by rw [exec_encData, hframe]; rfl, hstate, hzero, hone, fun i hi => ?params, houtside⟩
    case params => rw [hrest i (by omega), paramsOperand_getElem]

/-! ## The laws of a successful encode (41_encode.md R155, R156) -/

theorem code_ne_zero (e : Status) (h : e ≠ .ok) : e.code ≠ 0 := by
  cases e
  case ok => exact absurd rfl h
  all_goals decide

/-- ENC.CTRL that ends with OK has framed ITEM and the params. -/
theorem encCtrl_success (s t : State) (h : exec .encCtrl s = .next t) (hok : t.status = 0) :
    s.frameType.toNat ≤ 3 ∧ 4 + s.inLen.toNat ≤ 8191 ∧
      FrameWritten s t (controlPayload s.item (paramsOperand s)) := by
  rcases encodeControl_cases s.frameType s.item (paramsOperand s) with ⟨e, he, herror⟩ | ⟨ht, hn, hframe⟩
  · cases (exec_encCtrl_error s e herror).symm.trans h
    exact absurd hok (code_ne_zero e he)
  · rw [paramsOperand_length] at hn
    rw [exec_encCtrl, hframe] at h
    cases h
    exact ⟨ht, hn, finishEncode_frameWritten s _ (by omega) (controlPayload_fits s hn).2⟩

/-- ENC.DATA that ends with OK has framed the params. -/
theorem encData_success (s t : State) (h : exec .encData s = .next t) (hok : t.status = 0) :
    4 ≤ s.frameType.toNat ∧ s.frameType.toNat ≤ 7 ∧
      ¬((s.frameType.toNat = 4 ∨ s.frameType.toNat = 5) ∧ s.inLen.toNat < 2) ∧ fitsHeader (2 + s.inLen.toNat) ∧
      FrameWritten s t (paramsOperand s) := by
  rcases encodeData_cases s.frameType (paramsOperand s) with ⟨e, he, herror⟩ | ⟨hlo, hhi, hs, hp, hframe⟩
  · cases (exec_encData_error s e herror).symm.trans h
    exact absurd hok (code_ne_zero e he)
  · have hwritten := finishEncode_frameWritten s (paramsOperand s) hhi hp
    rw [paramsOperand_length] at hs hp
    rw [exec_encData, hframe] at h
    cases h
    exact ⟨hlo, hhi, hs, hp, hwritten⟩

theorem outLen_of_frameWritten (s u : State) (payload : List Byte) (h : FrameWritten s u payload)
    (hp : fitsHeader (2 + payload.length)) : u.outLen.toNat = 2 + payload.length := by
  rw [h.state, BitVec.toNat_ofNat]
  rcases hp with hp | hp <;> omega

theorem header_of_frameWritten (s u : State) (payload : List Byte) (h : FrameWritten s u payload) :
    (le16 (u.outByte 0) (u.outByte 1)).toNat = fieldNumber (2 + payload.length) + s.frameType.toNat * 8192 := by
  rw [le16_toNat, h.byteZero, h.byteOne]
  omega

/-- R155 of a frame in OUT, once its length is one that header packing takes. -/
theorem headerFields_of_frameWritten (s u : State) (payload : List Byte) (h : FrameWritten s u payload)
    (hp : fitsHeader (2 + payload.length)) :
    (le16 (u.outByte 0) (u.outByte 1)).toNat / 8192 = s.frameType.toNat ∧
      (le16 (u.outByte 0) (u.outByte 1)).toNat % 8192 = fieldNumber u.outLen.toNat := by
  have hfield := fieldNumber_le _ hp
  rw [header_of_frameWritten s u payload h, outLen_of_frameWritten s u payload h hp]
  omega

/-- Settles O24: both encoders leave a frame whose header carries TYPE and the length, which is 8194 for data frames
only. -/
theorem headerLengthIsTheFrameLength : Obligations.HeaderLengthIsTheFrameLength := by
  rintro i s t (rfl | rfl) h hok
  · obtain ⟨ht, hn, hframe⟩ := encCtrl_success s t h hok
    obtain ⟨htotal, hfits⟩ := controlPayload_fits s hn
    have hlen := outLen_of_frameWritten s t _ hframe hfits
    obtain ⟨htype, hfield⟩ := headerFields_of_frameWritten s t _ hframe hfits
    exact ⟨htype, by rw [hfield, if_neg (by omega), fieldNumber_of_le _ (by omega)]⟩
  · obtain ⟨hlo, hhi, -, hp, hframe⟩ := encData_success s t h hok
    obtain ⟨htype, hfield⟩ := headerFields_of_frameWritten s t _ hframe (by rwa [paramsOperand_length])
    exact ⟨htype, by simp only [hfield, fieldNumber, hlo, true_and]⟩

/-- Settles O25: OUT_LEN is the length of the frame, of which each encoder has checked the bounds. -/
theorem encodedFrameSizes : Obligations.EncodedFrameSizes := by
  refine fun s t hok => ⟨fun h => ?control, fun h => ?data⟩
  case control =>
    obtain ⟨-, hn, hframe⟩ := encCtrl_success s t h hok
    obtain ⟨htotal, hfits⟩ := controlPayload_fits s hn
    rw [outLen_of_frameWritten s t _ hframe hfits]
    omega
  case data =>
    obtain ⟨-, -, hs, hp, hframe⟩ := encData_success s t h hok
    rw [← paramsOperand_length s] at hs hp
    rw [outLen_of_frameWritten s t _ hframe hp]
    refine ⟨hp, ?_⟩
    split <;> omega

/-! ## The encoders and the rest of the state (41_encode.md R157) -/

/-- What an encoder ends with is its result alone: STATUS, OUT_LEN, RES and `OUT[0..OUT_LEN]`. -/
theorem finishEncode_outputs (r : Except Status EncodedFrame) (s u : State) :
    (finishEncode r u).status = (finishEncode r s).status ∧ (finishEncode r u).outLen = (finishEncode r s).outLen ∧
      (finishEncode r u).res = (finishEncode r s).res ∧
      ∀ j, j < (finishEncode r s).outLen.toNat → (finishEncode r u).outByte j = (finishEncode r s).outByte j := by
  cases r with
  | error e => exact ⟨rfl, rfl, rfl, fun j hj => absurd hj (Nat.not_lt_zero j)⟩
  | ok f =>
    refine ⟨rfl, rfl, rfl, fun j hj => ?_⟩
    have hlen : j < f.bytes.length := Nat.lt_of_lt_of_le hj (ofNat_register_le (Nat.le_refl _))
    rw [finishEncode_outByte f u j hlen, finishEncode_outByte f s j hlen]

/-- Settles O26: the encoder's result is a function of the operands, and all it ends with is a function of that. -/
theorem encodersDependOnTheirOperandsOnly : Obligations.EncodersDependOnTheirOperandsOnly := by
  intro i s u s' u' hi htype hitem hinLen hbytes hs hu
  have hparams : paramsOperand u = paramsOperand s := by
    rw [paramsOperand, hinLen]
    exact inBytes_congr s u 0 _ fun j hj => by simpa using hbytes j hj
  rcases hi with rfl | rfl
  · rw [exec_encCtrl] at hs hu
    rw [htype, hitem rfl, hparams] at hu
    cases hs
    cases hu
    exact finishEncode_outputs _ s u
  · rw [exec_encData] at hs hu
    rw [htype, hparams] at hu
    cases hs
    cases hu
    exact finishEncode_outputs _ s u

end Sys2Proof.EncodingProofs
end

section
/-! What DECODE ends with for each class of IN (42_decode.md R171 to R174), in numbers: first for whatever words are
taken for the header and the sub-header, then for those in IN. -/

namespace Sys2Proof.DecodeProofs

open Sys2Proof.Machine Sys2Proof.Laws Sys2Proof.EncodingProofs

theorem exec_decode (s : State) : exec .decode s = .next (decodeIn (inHalf s 0) (inHalf s 2) s) := rfl

/-- Decoding that raises: RES 0 and the code. -/
theorem decodeIn_error (w sub : Half) (s : State) (e : Status) (h : decodeFrame s.inLen.toNat w sub = .error e) :
    decodeIn w sub s = afterRaise e.code s := by
  rw [decodeIn, h, finishDecode_error]

/-- Decoding a frame of type 5 of its declared length. -/
theorem decodeIn_seq (s : State) (w sub : Half) (h : 4 ≤ s.inLen.toNat) (hd : s.inLen.toNat = declaredLength w)
    (ht : typeNumber w = 5) :
    decodeIn w sub s =
      { s with
        res := resultsOf 2 5 0 sub.toNat 4 (s.inLen.toNat - 4) w.toNat (declaredLength w) (escapeNumber w)
        status := 0 } := by
  rw [decodeIn, decodeFrame_seq _ w sub h hd ht, finishDecode_ok]
  simp only [decodedRes, resultsOf, headerType_register, half_register, escapeNumber_eq, ht]
  rfl

/-- Decoding a frame of types 6 and 7 of its declared length. -/
theorem decodeIn_bare (s : State) (w sub : Half) (h : 2 ≤ s.inLen.toNat) (hd : s.inLen.toNat = declaredLength w)
    (ht : 6 ≤ typeNumber w) :
    decodeIn w sub s =
      { s with
        res := resultsOf 3 (typeNumber w) 0 0 2 (s.inLen.toNat - 2) w.toNat (declaredLength w) (escapeNumber w)
        status := 0 } := by
  rw [decodeIn, decodeFrame_bare _ w sub h hd ht, finishDecode_ok]
  simp only [decodedRes, resultsOf, headerType_register, half_register, escapeNumber_eq]
  rfl

/-- The escape is the one way to declare 8194 bytes: a length field ends at 8191 (30_encoding.md R98, R99). -/
theorem escapeNumber_of_declaredLength (w : Half) : escapeNumber w = if declaredLength w = 8194 then 1 else 0 := by
  rw [escapeNumber, declaredLength]
  split
  · rfl
  · rw [if_neg (by omega)]

/-- Settles O7: each class of R174 is a class of `decodeFrame`, with the header word and the sub-header of IN. -/
theorem decodeResults : Obligations.DecodeResults := by
  refine ⟨rfl, fun s => ⟨fun hn => ?empty, fun hn hd => ?mismatch, fun hn hd ht hshort => ?truncated,
    fun hn hd ht hc => ?unknown, fun hn hd ht hc => ?item, fun hn hd ht => ?seq, fun hn hd ht => ?bare⟩⟩
  all_goals rw [exec_decode]
  case empty => rw [decodeIn_error _ _ s _ (decodeFrame_empty _ _ _ hn)]; rfl
  case mismatch => rw [decodeIn_error _ _ s _ (decodeFrame_mismatch _ _ _ hn hd)]; rfl
  case truncated => rw [decodeIn_error _ _ s _ (decodeFrame_truncated _ _ _ hn hd ht hshort)]; rfl
  case unknown => rw [decodeIn_error _ _ s _ (decodeFrame_unknown _ _ _ hn hd ht hc)]; rfl
  case item => rw [decodeIn_item s _ _ hn hd ht hc]
  case seq => rw [decodeIn_seq s _ _ hn hd ht]
  case bare => rw [decodeIn_bare s _ _ hn hd ht]

/-- Settles O18: the header word's instruction and the item code's both decode IN with the words that stand there. -/
theorem decodeRunsTheHeaderAndTheItem : Obligations.DecodeRunsTheHeaderAndTheItem := fun s =>
  ⟨StateProofs.exec_decodeHeader (inHalf s 0) s, fun i hi => StateProofs.exec_of_decodeItem (inHalf s 2) i s hi⟩

end Sys2Proof.DecodeProofs
end

section
/-! The header words as instructions (30_encoding.md R93; log 6): what each ends with for a frame of its declared
length. -/

namespace Sys2Proof.DecodeProofs

open Sys2Proof.Machine Sys2Proof.Laws Sys2Proof.EncodingProofs

/-- The eight header words of one length field, each with its type number (30_encoding.md R93). -/
def headerRows (len : LengthField) : List (Instr × Nat) :=
  [(.setControlItem len, 0), (.currentControlItem len, 1), (.controlItemRange len, 2), (.ack len, 3),
    (.dataItem0 len, 4), (.dataItem1 len, 5), (.dataItem2 len, 6), (.dataItem3 len, 7)]

/-- The header word of a row of `headerRows`. -/
def rowWord (n : Nat) (len : LengthField) : Half := headerWord (BitVec.ofNat 3 n) len

/-- The spec's numbers of a row's header word (30_encoding.md R91, R98, R99). -/
theorem rowWord_numbers (n : Nat) (hn : n < 8) (len : LengthField) :
    (rowWord n len).toNat = len.toNat + n * 8192 ∧ typeNumber (rowWord n len) = n ∧
      declaredLength (rowWord n len) = if 4 ≤ n ∧ len.toNat = 0 then 8194 else len.toNat := by
  have htype : (BitVec.ofNat 3 n).toNat = n := by rw [BitVec.toNat_ofNat]; exact Nat.mod_eq_of_lt hn
  obtain ⟨hword, hnum, hdecl, -⟩ := headerWord_numbers (BitVec.ofNat 3 n) len
  rw [htype] at hword hnum hdecl
  exact ⟨hword, hnum, hdecl⟩

theorem exec_headerRow (s : State) (len : LengthField) (x : Instr × Nat) (hx : x ∈ headerRows len) :
    x.2 < 8 ∧ exec x.1 s = .next (decodeIn (rowWord x.2 len) (inHalf s 2) s) := by
  simp only [headerRows, List.mem_cons, List.not_mem_nil, or_false] at hx
  rcases hx with rfl | rfl | rfl | rfl | rfl | rfl | rfl | rfl
  all_goals exact ⟨by simp, rfl⟩

/-- Settles O14: types 0 to 4 decode the sub-header as an item code. -/
theorem itemFramesDecode : Obligations.ItemFramesDecode := by
  intro s len x hx d c hn hd hc
  obtain ⟨hlt, hexec⟩ := exec_headerRow s len x (List.mem_append_left [_, _, _] hx)
  obtain ⟨hword, htype, hdecl⟩ := rowWord_numbers x.2 hlt len
  have hle : x.2 ≤ 4 := by
    simp only [List.mem_cons, List.not_mem_nil, or_false] at hx
    rcases hx with rfl | rfl | rfl | rfl | rfl
    all_goals simp
  have hkind : kindNumber x.2 = if x.2 = 4 then 1 else 0 := by
    rw [kindNumber]
    split <;> split <;> omega
  rw [hexec, decodeIn_item s _ _ (hn ▸ hd) (hn.trans hdecl.symm) (htype.le.trans hle) hc,
    escapeNumber_of_declaredLength, htype, hword, hdecl, hn, hkind]

/-- Settles O15: type 5 decodes the sub-header as a sequence number. -/
theorem sequenceFrameDecodes : Obligations.SequenceFrameDecodes := by
  intro s len d hn hd
  obtain ⟨-, hexec⟩ := exec_headerRow s len (.dataItem1 len, 5) (by simp [headerRows])
  obtain ⟨hword, htype, hdecl⟩ := rowWord_numbers 5 (by decide) len
  have hdecl' : declaredLength (rowWord 5 len) = d := by rw [hdecl]; simp [d]
  rw [hexec, decodeIn_seq s _ _ (hn ▸ hd) (hn.trans hdecl'.symm) htype,
    escapeNumber_of_declaredLength, hword, hdecl', hn]

/-- Settles O16: types 6 and 7 have no sub-header. -/
theorem bareFramesDecode : Obligations.BareFramesDecode := by
  intro s len x hx d hn hd
  obtain ⟨hlt, hexec⟩ := exec_headerRow s len x (List.mem_append_right [_, _, _, _, _, _] hx)
  obtain ⟨hword, htype, hdecl⟩ := rowWord_numbers x.2 hlt len
  have hle : 6 ≤ x.2 := by
    simp only [List.mem_cons, List.not_mem_nil, or_false] at hx
    rcases hx with rfl | rfl
    all_goals simp
  have hdecl' : declaredLength (rowWord x.2 len) = d := by
    rw [hdecl]
    simp only [show 4 ≤ x.2 by omega, true_and, d]
  rw [hexec, decodeIn_bare s _ _ (hn ▸ hd) (hn.trans hdecl'.symm) (hle.trans htype.ge),
    escapeNumber_of_declaredLength, htype, hword, hdecl', hn]

end Sys2Proof.DecodeProofs
end

section
/-! `decode` as a function on byte sequences (42_decode.md R170): DECODE is that function on `IN[0..IN_LEN]`, and its
laws of length and item code (R177, R178). -/

namespace Sys2Proof.DecodeProofs

open Sys2Proof.Machine Sys2Proof.Laws Sys2Proof.StateProofs Sys2Proof.MemoryProofs

/-- `le16(buf[a..a+2])`, with 0 for what the buffer does not reach. -/
def bufferHalf (buf : List Byte) (a : Nat) : Half := le16 (buf.getD a 0) (buf.getD (a + 1) 0)

theorem decodeBuffer_eq (buf : List Byte) :
    decodeBuffer buf = decodeFrame buf.length (bufferHalf buf 0) (bufferHalf buf 2) := rfl

/-! ## DECODE -/

theorem bufferHalf_inBytes (s : State) (a n : Nat) (h : a + 2 ≤ n) : bufferHalf (s.inBytes 0 n) a = inHalf s a := by
  have hbyte (i : Nat) (hi : i < n) : (s.inBytes 0 n).getD i 0 = s.inByte i := by
    rw [List.getD_eq_getElem _ _ (by rwa [inBytes_length]), inBytes_getElem, Nat.zero_add]
  rw [bufferHalf, hbyte a (by omega), hbyte (a + 1) (by omega), inHalf]

/-- DECODE may look beyond IN_LEN for its header word and its sub-header: what it finds there does not matter
(log 22). -/
theorem decodeBuffer_inBytes (s : State) :
    decodeBuffer (s.inBytes 0 s.inLen.toNat) = decodeFrame s.inLen.toNat (inHalf s 0) (inHalf s 2) := by
  rw [decodeBuffer_eq, inBytes_length]
  exact decodeFrame_congr _ _ _ _ _ (bufferHalf_inBytes s 0 _) (bufferHalf_inBytes s 2 _)

/-- Settles O29: both are `decodeFrame` of the same words. -/
theorem decodeIsTheFunctionOnTheBuffer : Obligations.DecodeIsTheFunctionOnTheBuffer := by
  intro s
  rw [decodeBuffer_inBytes, exec_decode, decodeIn]
  exact ⟨fun f hf => by rw [hf, finishDecode_ok], fun e he => by rw [he, finishDecode_error]⟩

/-! ## The laws of length and item code -/

theorem decodeBuffer_empty (buf : List Byte) (h : buf.length < 2) : decodeBuffer buf = .error .empty := by
  rw [decodeBuffer_eq, decodeFrame_empty _ _ _ h]

theorem decodeBuffer_mismatch (buf : List Byte) (h : 2 ≤ buf.length)
    (hd : buf.length ≠ declaredLength (bufferHalf buf 0)) : decodeBuffer buf = .error .lengthMismatch := by
  rw [decodeBuffer_eq, decodeFrame_mismatch _ _ _ h hd]

/-- A buffer that decodes holds a header word and has the length it declares. -/
theorem length_of_decodeBuffer (buf : List Byte) (r : DecodedFrame) (h : decodeBuffer buf = .ok r) :
    2 ≤ buf.length ∧ buf.length = declaredLength (bufferHalf buf 0) := by
  obtain ⟨-, hdecl, -⟩ := decodeFrame_fields _ _ _ r h
  refine ⟨?_, hdecl⟩
  by_contra hshort
  rw [decodeBuffer_empty buf (by omega)] at h
  cases h

/-- Bytes appended to a buffer leave its header word. -/
theorem bufferHalf_append (buf more : List Byte) (h : 2 ≤ buf.length) :
    bufferHalf (buf ++ more) 0 = bufferHalf buf 0 := by
  rw [bufferHalf, bufferHalf, List.getD_append _ _ _ _ (by omega), List.getD_append _ _ _ _ (by omega)]

/-- Settles O30: the shorter and the longer buffer have the header word of the one that decodes, which declares neither
length. -/
theorem lengthMismatchIsAlwaysCaught : Obligations.LengthMismatchIsAlwaysCaught := by
  intro f r hf
  obtain ⟨hlong, hdecl⟩ := length_of_decodeBuffer f r hf
  refine ⟨?removed, fun b => ?appended⟩
  case removed =>
    have hlen : f.dropLast.length = f.length - 1 := List.length_dropLast
    split
    · exact decodeBuffer_empty _ (by omega)
    · have hne : f ≠ [] := List.ne_nil_of_length_pos (by omega)
      have hhead : bufferHalf f.dropLast 0 = bufferHalf f 0 := by
        rw [← bufferHalf_append f.dropLast [f.getLast hne] (by omega), List.dropLast_append_getLast]
      exact decodeBuffer_mismatch _ (by omega) (by rw [hhead]; omega)
  case appended =>
    have hlen : (f ++ [b]).length = f.length + 1 := List.length_append
    exact decodeBuffer_mismatch _ (by omega) (by rw [bufferHalf_append f [b] hlong]; omega)

/-- Settles O31: the buffer has its declared length of at least 4, so its sub-header is checked. -/
theorem unknownItemCodesAreAlwaysCaught : Obligations.UnknownItemCodesAreAlwaysCaught := by
  intro b0 b1 b2 b3 body ht hd hc
  have hlen : (b0 :: b1 :: b2 :: b3 :: body).length = 4 + body.length := by simp only [List.length_cons]; omega
  rw [decodeBuffer_eq]
  exact decodeFrame_unknown _ (le16 b0 b1) (le16 b2 b3) (by omega) (hlen.trans hd.symm) ht hc

end Sys2Proof.DecodeProofs
end

section
/-! A frame that an encoder has left in OUT, copied to IN, decodes to what was encoded (42_decode.md R176). -/

namespace Sys2Proof.DecodeProofs

open Sys2Proof.Machine Sys2Proof.Laws Sys2Proof.EncodingProofs

/-! ## The frame in IN -/

/-- IN of d holds `OUT[0..OUT_LEN]` of e, as the host's loopback leaves it (30_encoding.md R116). -/
structure HoldsOut (e d : State) : Prop where
  inLen : d.inLen = e.outLen
  bytes : ∀ i, i < e.outLen.toNat → d.inByte i = e.outByte i

/-- What DECODE reads of a state d whose IN holds the frame of a payload, encoded from s to e: its length, its header
word's numbers and its payload. -/
structure FrameInIn (s e d : State) (payload : List Byte) : Prop where
  inLen : d.inLen.toNat = 2 + payload.length
  outLen : e.outLen.toNat = 2 + payload.length
  frameType : typeNumber (inHalf d 0) = s.frameType.toNat
  declared : declaredLength (inHalf d 0) = 2 + payload.length
  header : (inHalf d 0).toNat = e.res.hdr.toNat
  rest : ∀ i (h : i < payload.length), d.inByte (2 + i) = payload[i]

/-- The length field of a frame is 0 for the escaped length only, so a header word of a data type declares the frame's
own length, and one of a control type does so where no escape is needed (41_encode.md R155). -/
theorem declaredLength_of_fieldNumber (w : Half) (total : Nat) (hpos : 0 < total) (hfits : fitsHeader total)
    (hw : w.toNat = fieldNumber total + typeNumber w * 8192) (hesc : total = 8194 → 4 ≤ typeNumber w) :
    declaredLength w = total := by
  have hfield : w.toNat % 8192 = fieldNumber total := by
    have := fieldNumber_le total hfits
    omega
  rw [declaredLength, hfield]
  rcases hfits with hle | rfl
  · rw [fieldNumber_of_le total hle, if_neg (by omega)]
  · rw [fieldNumber_escape, if_pos ⟨hesc rfl, rfl⟩]

/-- An encoder reports its frame's header word in R_HDR (41_encode.md R152, R154). -/
theorem hdr_of_frameWritten (s e : State) (payload : List Byte) (h : FrameWritten s e payload)
    (ht : s.frameType.toNat ≤ 7) (hfits : fitsHeader (2 + payload.length)) :
    e.res.hdr.toNat = fieldNumber (2 + payload.length) + s.frameType.toNat * 8192 := by
  have hfield := fieldNumber_le _ hfits
  rw [h.state]
  exact (BitVec.toNat_ofNat _ _).trans (Nat.mod_eq_of_lt (by omega))

/-- An encoder's frame, copied to IN. -/
theorem frameInIn_of_frameWritten (s e d : State) (payload : List Byte) (h : FrameWritten s e payload)
    (ht : s.frameType.toNat ≤ 7) (hfits : fitsHeader (2 + payload.length))
    (hesc : 2 + payload.length = 8194 → 4 ≤ s.frameType.toNat) (hcopy : HoldsOut e d) :
    FrameInIn s e d payload := by
  have houtLen := outLen_of_frameWritten s e payload h hfits
  have hbytes : inHalf d 0 = le16 (e.outByte 0) (e.outByte 1) := by
    rw [inHalf, hcopy.bytes 0 (by omega), hcopy.bytes 1 (by omega)]
  have htype : typeNumber (inHalf d 0) = s.frameType.toNat :=
    hbytes ▸ (headerFields_of_frameWritten s e payload h hfits).1
  have hword : (inHalf d 0).toNat = fieldNumber (2 + payload.length) + s.frameType.toNat * 8192 :=
    hbytes ▸ header_of_frameWritten s e payload h
  exact
    { inLen := by rw [hcopy.inLen, houtLen]
      outLen := houtLen
      frameType := htype
      declared := declaredLength_of_fieldNumber _ _ (by omega) hfits (htype ▸ hword) (htype ▸ hesc)
      header := by rw [hword, hdr_of_frameWritten s e payload h ht hfits]
      rest := fun i hi => by rw [hcopy.bytes (2 + i) (by omega), h.rest i hi] }

/-- The sub-header of a frame in IN is the first two bytes of its payload. -/
theorem subHeader_of_frameInIn (s e d : State) (payload : List Byte) (h : FrameInIn s e d payload)
    (hlen : 2 ≤ payload.length) : inHalf d 2 = le16 payload[0] payload[1] := by
  rw [inHalf, h.rest 0 (by omega), h.rest 1 (by omega)]

/-! ## ENC.CTRL -/

/-- ENC.CTRL ends with OK for a known item code only (41_encode.md R152). -/
theorem item_of_encCtrl_success (s e : State) (h : exec .encCtrl s = .next e) (hok : e.status = 0) :
    s.item.toNat ∈ itemNumbers := by
  by_contra hc
  cases (exec_encCtrl_error s .invalidArgument (encodeControl_item _ _ _ hc)).symm.trans h
  exact absurd hok (code_ne_zero .invalidArgument (by decide))

/-- Settles O27: the header word declares the frame's length, and the payload is ITEM and then the params. -/
theorem controlFramesRoundTrip : Obligations.ControlFramesRoundTrip := by
  intro s e d h hok hlen hcopy
  obtain ⟨ht, hn, hwritten⟩ := encCtrl_success s e h hok
  have hitem := item_of_encCtrl_success s e h hok
  obtain ⟨htotal, hfits⟩ := controlPayload_fits s hn
  obtain ⟨hlow, hhigh, hparams⟩ := controlPayload_bytes s.item (paramsOperand s) hitem
  have hframe := frameInIn_of_frameWritten s e d _ hwritten (by omega) hfits (by omega) ⟨hlen, hcopy⟩
  have hsub : (inHalf d 2).toNat = s.item.toNat := by
    rw [subHeader_of_frameInIn s e d _ hframe (by omega), le16_toNat, hlow, hhigh]
    omega
  obtain ⟨hinLen, houtLen, htype, hdecl, hheader, hrest⟩ := hframe
  refine ⟨?results, fun i hi => ?body⟩
  case results =>
    have hkind : kindNumber s.frameType.toNat = 0 := if_pos ht
    have hbody : 4 + s.inLen.toNat - 4 = s.inLen.toNat := Nat.add_sub_cancel_left ..
    rw [exec_decode, decodeIn_item d _ _ (by omega) (hinLen.trans hdecl.symm) (by omega) (hsub ▸ hitem),
      escapeNumber_of_declaredLength, hdecl, if_neg (by omega), htype, hkind, hsub, hheader, hinLen, houtLen, htotal,
      hbody]
  case body =>
    rw [show 4 + i = 2 + (2 + i) by omega, hrest (2 + i) (by omega), hparams i (by rwa [paramsOperand_length]),
      paramsOperand_getElem]

/-! ## ENC.DATA -/

/-- Settles O28: the payload is the params, whose first two bytes are the sub-header of types 4 and 5. -/
theorem dataFramesRoundTrip : Obligations.DataFramesRoundTrip := by
  intro s e d h hok hlen hcopy t n sub esc
  obtain ⟨hlo, hhi, hshort, hfits, hwritten⟩ := encData_success s e h hok
  have hparams := paramsOperand_length s
  have hframe := frameInIn_of_frameWritten s e d _ hwritten hhi (by rwa [hparams]) (fun _ => hlo) ⟨hlen, hcopy⟩
  have hsub (hn : 2 ≤ n) : (inHalf d 2).toNat = sub := by
    rw [subHeader_of_frameInIn s e d _ hframe (by omega), paramsOperand_getElem, paramsOperand_getElem]
    rfl
  obtain ⟨hinLen, houtLen, htype, hdecl, hheader, hrest⟩ := hframe
  have hsame : d.inLen.toNat = declaredLength (inHalf d 0) := hinLen.trans hdecl.symm
  have hout : declaredLength (inHalf d 0) = e.outLen.toNat := hdecl.trans houtLen.symm
  have hin : d.inLen.toNat = 2 + n := by rw [hinLen, hparams]
  refine ⟨fun i hi => ?body, fun ht hc => ?item, fun ht hc => ?unknown, fun ht => ?seq, fun ht => ?bare⟩
  case body => rw [hrest i (by omega), paramsOperand_getElem]
  all_goals rw [exec_decode]
  case item =>
    have hn : 2 ≤ n := by omega
    rw [decodeIn_item d _ _ (by omega) hsame (by omega) (hsub hn ▸ hc), escapeNumber_of_declaredLength, hout,
      htype.trans ht, hheader, hsub hn, show d.inLen.toNat - 4 = n - 2 by omega]
    rfl
  case unknown =>
    have hn : 2 ≤ n := by omega
    rw [decodeIn_error _ _ d _ (decodeFrame_unknown _ _ _ (by omega) hsame (by omega) (hsub hn ▸ hc))]
    rfl
  case seq =>
    have hn : 2 ≤ n := by omega
    rw [decodeIn_seq d _ _ (by omega) hsame (by omega), escapeNumber_of_declaredLength, hout, hheader, hsub hn,
      show d.inLen.toNat - 4 = n - 2 by omega]
  case bare =>
    rw [decodeIn_bare d _ _ (by omega) hsame (by omega), escapeNumber_of_declaredLength, hout, htype, hheader,
      show d.inLen.toNat - 2 = n by omega]

end Sys2Proof.DecodeProofs
end

section
/-! The lanes of a body and the sequence they make, as functions on byte lists (43_samples.md R191 to R197, R203). -/

namespace Sys2Proof.SampleProofs

open Sys2Proof.Machine Sys2Proof.Laws Sys2Proof.StateProofs

/-! ## The bytes of a lane -/

/-- The bytes whose little-endian value is lane i. -/
def laneBytes (b : List Byte) (w i : Nat) : List Byte := (b.drop (i * bytesPerSample w)).take (bytesPerSample w)

theorem lane_eq (b : List Byte) (w i : Nat) : lane b w i = BitVec.ofNat 32 (leValue (laneBytes b w i)) := rfl

/-- A complete lane ends within the body. -/
theorem lane_end_le (n k i : Nat) (hk : 1 ≤ k) (hi : i < n / k) : i * k + k ≤ n := by
  have hend := (Nat.le_div_iff_mul_le hk).1 (Nat.succ_le_of_lt hi)
  rwa [Nat.succ_mul] at hend

theorem laneBytes_length (b : List Byte) (w i : Nat) (hw : 1 ≤ w) (hi : i < b.length / bytesPerSample w) :
    (laneBytes b w i).length = bytesPerSample w := by
  have hk : 1 ≤ bytesPerSample w := by unfold bytesPerSample; omega
  have hend := lane_end_le _ _ i hk hi
  rw [laneBytes, List.length_take, List.length_drop]
  omega

theorem laneBytes_getD (b : List Byte) (w i j : Nat) (hj : j < bytesPerSample w) :
    (laneBytes b w i).getD j 0 = b.getD (i * bytesPerSample w + j) 0 := by
  simp [laneBytes, List.getD_eq_getElem?_getD, hj]

/-! ## The number of a lane -/

/-- The bound of 43_samples.md R193; it holds of an incomplete lane as well. -/
theorem leValue_laneBytes_lt (b : List Byte) (w i : Nat) : leValue (laneBytes b w i) < 256 ^ bytesPerSample w :=
  Nat.lt_of_lt_of_le (leValue_lt _) (Nat.pow_le_pow_right (by decide) (List.length_take_le _ _))

/-- A lane of a legal width fits its register, so its 32-bit pattern is its little-endian value. -/
theorem lane_toNat (b : List Byte) (w i : Nat) (hw : w ≤ 32) : (lane b w i).toNat = leValue (laneBytes b w i) := by
  have hk : bytesPerSample w ≤ 4 := by unfold bytesPerSample; omega
  rw [lane_eq, BitVec.toNat_ofNat]
  have hfits : 256 ^ bytesPerSample w ≤ 2 ^ 32 := Nat.pow_le_pow_right (n := 256) (by decide) hk
  exact Nat.mod_eq_of_lt (Nat.lt_of_lt_of_le (leValue_laneBytes_lt b w i) hfits)

theorem lane_lt (b : List Byte) (w i : Nat) (hw : w ≤ 32) : (lane b w i).toNat < 256 ^ bytesPerSample w :=
  lane_toNat b w i hw ▸ leValue_laneBytes_lt b w i

/-- Settles O32: the sum of `leValue_sum`, over the bytes of the lane. -/
theorem laneIsTheLittleEndianSum : Obligations.LaneIsTheLittleEndianSum := by
  intro b w i hlo hhi hi
  rw [lane_toNat b w i hhi, leValue_sum, laneBytes_length b w i hlo hi]
  exact Finset.sum_congr rfl fun j hj => by rw [laneBytes_getD b w i j (Finset.mem_range.1 hj)]; rfl

/-! ## The sequence -/

theorem validWidth_false (w : Nat) (h : w < 1 ∨ 32 < w) : validWidth w = false := by
  rw [Bool.eq_false_iff, ne_eq, validWidth_iff]
  omega

theorem samples_invalid (w : Nat) (b : List Byte) (h : w < 1 ∨ 32 < w) : samples w b = .error .invalidSampleWidth := by
  rw [samples, validWidth_false w h]
  rfl

theorem samples_valid (w : Nat) (b : List Byte) (hlo : 1 ≤ w) (hhi : w ≤ 32) :
    samples w b = .ok ((List.range (sampleCount b w)).map fun i => (lane b w i).toInt) := by
  rw [samples, if_pos ((validWidth_iff w).2 ⟨hlo, hhi⟩)]

/-- A member of the sequence is a lane of a legal width. -/
theorem mem_samples (w : Nat) (b : List Byte) (l : List Int) (h : samples w b = .ok l) (x : Int) (hx : x ∈ l) :
    w ≤ 32 ∧ ∃ i, x = (lane b w i).toInt := by
  by_cases hw : 1 ≤ w ∧ w ≤ 32
  · rw [samples_valid w b hw.1 hw.2] at h
    cases h
    obtain ⟨i, -, hi⟩ := List.mem_map.1 hx
    exact ⟨hw.2, i, hi.symm⟩
  · rw [samples_invalid w b (by omega)] at h
    cases h

/-- Settles O33: the two branches of `samples`. -/
theorem samplesAreTheCompleteLanes : Obligations.SamplesAreTheCompleteLanes := by
  intro w b
  refine ⟨samples_invalid w b, fun hlo hhi => ⟨_, samples_valid w b hlo hhi, ?count, fun i hi => ?element⟩⟩
  case count => rw [List.length_map, List.length_range]; rfl
  case element =>
    rw [List.length_map, List.length_range] at hi
    simp [hi]

/-- Settles O34: a lane is below 256 to its byte count, and its top bit is a sign in a lane of four bytes only. -/
theorem sampleValueRanges : Obligations.SampleValueRanges := by
  intro w b l h x hx
  obtain ⟨hw, i, rfl⟩ := mem_samples w b l h x hx
  have hlt := lane_lt b w i hw
  have hint := BitVec.toInt_eq_toNat_cond (lane b w i)
  have hbytes (n : Nat) (hn : (w + 7) / 8 = n) : (lane b w i).toNat < 256 ^ n := hn ▸ hlt
  refine ⟨fun hn => ?_, fun hn => ?_, fun hn => ?_, fun hn => ?_⟩ <;>
  · have hn := hbytes _ hn
    split at hint <;> omega

/-- Settles O35: `samples` looks at a legal width through its lane size alone. -/
theorem equalLaneSizesGiveEqualSamples : Obligations.EqualLaneSizesGiveEqualSamples := by
  intro w v b hwlo hwhi hvlo hvhi h
  have hsize : bytesPerSample w = bytesPerSample v := h
  have hlane (i : Nat) : lane b w i = lane b v i := by rw [lane, lane, hsize]
  rw [samples_valid w b hwlo hwhi, samples_valid v b hvlo hvhi, sampleCount, sampleCount, hsize]
  simp only [hlane]

end Sys2Proof.SampleProofs
end

section
/-! SMP.START and SMP.NEXT class by class (43_samples.md R198, R199, R202): the effect of each on the cursor. -/

namespace Sys2Proof.SampleProofs

open Sys2Proof.Machine Sys2Proof.Laws Sys2Proof.StateProofs Sys2Proof.MemoryProofs

/-! ## SMP.START -/

theorem startEffect_width (s : State) (h : s.width.toNat < 1 ∨ 32 < s.width.toNat) :
    startEffect s = .cursor .zero .invalidSampleWidth := by
  rw [startEffect, validWidth_false _ h]
  rfl

theorem startEffect_window (s : State) (hlo : 1 ≤ s.width.toNat) (hhi : s.width.toNat ≤ 32)
    (h : s.inLen.toNat < s.soff.toNat + s.slen.toNat) : startEffect s = .cursor .zero .invalidArgument := by
  rw [startEffect, (validWidth_iff _).2 ⟨hlo, hhi⟩, if_neg (by decide), if_pos h]

theorem startEffect_started (s : State) (hlo : 1 ≤ s.width.toNat) (hhi : s.width.toNat ≤ 32)
    (h : s.soff.toNat + s.slen.toNat ≤ s.inLen.toNat) : startEffect s = .cursor (startedCursor s) .ok := by
  rw [startEffect, (validWidth_iff _).2 ⟨hlo, hhi⟩, if_neg (by decide), if_neg (by omega)]

/-- The armed cursor in the numbers of 43_samples.md R198. -/
theorem startedCursor_eq (s : State) (hlo : 1 ≤ s.width.toNat) (hhi : s.width.toNat ≤ 32) :
    startedCursor s =
      { state := BitVec.ofNat 32 (1 + bytesPerSample s.width.toNat * 256 + s.width.toNat * 65536)
        off := s.soff
        count := BitVec.ofNat 32 (s.slen.toNat / bytesPerSample s.width.toNat)
        pos := 0
        sample := 0 } := by
  obtain ⟨-, hk⟩ := bytesPerSample_bounds s.width.toNat hlo hhi
  rw [startedCursor, ← armedState_toNat (bytesPerSample s.width.toNat) s.width (by omega) (by omega),
    BitVec.ofNat_toNat, BitVec.setWidth_eq]

/-- Settles O8: the three values of `startEffect`. -/
theorem sampleStartResults : Obligations.SampleStartResults := by
  refine ⟨by decide, ?_⟩
  intro s w
  refine ⟨fun hw => ?width, fun hlo hhi hwin => ?window, fun hlo hhi hwin => ?started⟩
  all_goals rw [exec_smpStart]
  case width => rw [startEffect_width s hw]; rfl
  case window => rw [startEffect_window s hlo hhi hwin]; rfl
  case started => rw [startEffect_started s hlo hhi hwin, startedCursor_eq s hlo hhi]; rfl

/-! ## SMP.NEXT -/

/-- The cursor after a delivery. -/
def deliveredCursor (s : State) : Cursor :=
  { s.su with sample := BitVec.ofNat 32 (leValue (s.inBytes (cursorBase s) s.su.bps)), pos := s.su.pos + 1 }

theorem nextEffect_notArmed (s : State) (h : s.su.armed = false) : nextEffect s = .status .notArmed := by
  rw [nextEffect, h]
  rfl

theorem nextEffect_end (s : State) (h : s.su.armed = true) (hp : s.su.pos = s.su.count) :
    nextEffect s = .status .sampleEnd := by
  rw [nextEffect, h, if_neg (by decide), if_pos hp]

theorem nextEffect_delivered (s : State) (h : s.su.armed = true) (hp : s.su.pos ≠ s.su.count) :
    nextEffect s = .cursor (deliveredCursor s) .ok := by
  rw [nextEffect, h, if_neg (by decide), if_neg hp]
  rfl

/-- A window of IN as the sum of 43_samples.md R199. -/
theorem leValue_inBytes (s : State) (a n : Nat) :
    leValue (s.inBytes a n) = ∑ j ∈ Finset.range n, (s.inByte (a + j)).toNat * 256 ^ j := by
  rw [leValue_sum, inBytes_length]
  refine Finset.sum_congr rfl fun j hj => ?_
  rw [List.getD_eq_getElem _ _ (by simpa using hj), inBytes_getElem]

theorem deliveredCursor_eq (s : State) :
    deliveredCursor s =
      { s.su with
        sample := BitVec.ofNat 32 (∑ j ∈ Finset.range s.su.bps, (s.inByte (cursorBase s + j)).toNat * 256 ^ j)
        pos := s.su.pos + 1 } := by
  rw [deliveredCursor, leValue_inBytes]

/-- Settles O9: the three values of `nextEffect`, with the fields of SU_STATE as numbers. -/
theorem sampleNextResults : Obligations.SampleNextResults := by
  refine ⟨by decide, ?_⟩
  intro s armed bps base
  refine ⟨fun ha => ?notArmed, fun ha hp => ?finished, fun ha hp => ?delivered⟩
  all_goals
    have harmed : s.su.armed = decide (armed = 1) := armed_eq s.su
    rw [exec_smpNext]
  case notArmed => rw [nextEffect_notArmed s (by rw [harmed, ha]; rfl)]; rfl
  case finished => rw [nextEffect_end s (by rw [harmed, ha]; rfl) hp]; rfl
  case delivered =>
    have hbps : s.su.bps = bps := bps_eq s.su
    have hbase : cursorBase s = base := by rw [cursorBase, hbps]
    rw [nextEffect_delivered s (by rw [harmed, ha]; rfl) hp, deliveredCursor_eq, hbase, hbps]
    rfl

/-! ## What SMP.NEXT reads -/

/-- SMP.NEXT is determined by the cursor and, if it delivers, by the lane. -/
theorem nextEffect_congr (s t : State) (hsu : t.su = s.su)
    (hlane : s.su.armed = true → s.su.pos ≠ s.su.count →
      ∀ j, j < s.su.bps → t.inByte (cursorBase s + j) = s.inByte (cursorBase s + j)) :
    nextEffect t = nextEffect s := by
  cases ha : s.su.armed with
  | false => rw [nextEffect_notArmed s ha, nextEffect_notArmed t (hsu ▸ ha)]
  | true =>
    by_cases hp : s.su.pos = s.su.count
    · rw [nextEffect_end s ha hp, nextEffect_end t (hsu ▸ ha) (hsu ▸ hp)]
    · have hbase : cursorBase t = cursorBase s := by rw [cursorBase, cursorBase, hsu]
      rw [nextEffect_delivered s ha hp, nextEffect_delivered t (hsu ▸ ha) (hsu ▸ hp), deliveredCursor, deliveredCursor,
        hsu, hbase, inBytes_congr s t _ _ (hlane ha hp)]

theorem bps_le_four (s : State) (h : CursorGood s) : s.su.bps ≤ 4 := by
  have hbps := h.bps
  have hwidth := h.width
  rw [bytesPerSample] at hbps
  omega

/-- Settles O60: the good cursor bounds the lane, and both memories hold the same lane. -/
theorem sampleNextReadsValidBytesOnly : Obligations.SampleNextReadsValidBytesOnly := by
  intro s m hgood ha hp hlane
  have heffect : nextEffect { s with mem := m } = .cursor (deliveredCursor s) .ok :=
    (nextEffect_congr s { s with mem := m } rfl fun _ _ => hlane).trans (nextEffect_delivered s ha hp)
  refine ⟨bps_le_four s hgood.cursor, lane_within_inLen s hgood.cursor ha hp, _, exec_smpNext s, ?_⟩
  rw [exec_smpNext, heffect, nextEffect_delivered s ha hp]
  exact ⟨rfl, rfl, rfl⟩

end Sys2Proof.SampleProofs
end

section
/-! The body between two sample commands: `IN[0..IN_LEN]` survives every event that writes neither IN nor IN_LEN and is
no reset (20_memory.md R75). -/

namespace Sys2Proof.SampleProofs

open Sys2Proof.Machine Sys2Proof.Laws Sys2Proof.StateProofs Sys2Proof.MemoryProofs

/-- IN_LEN and the bytes of IN below it agree. -/
structure SameBody (s t : State) : Prop where
  inLen : t.inLen = s.inLen
  bytes : ∀ j, j < s.inLen.toNat → t.inByte j = s.inByte j

theorem sameBody_trans (s t u : State) (h : SameBody s t) (h' : SameBody t u) : SameBody s u :=
  ⟨h'.inLen.trans h.inLen, fun j hj => (h'.bytes j (h.inLen ▸ hj)).trans (h.bytes j hj)⟩

theorem sameBody_of_memory (s t : State) (hin : t.inLen = s.inLen) (hmem : t.mem = s.mem) (hr : t.resets = s.resets) :
    SameBody s t := ⟨hin, fun j _ => byteAt_of_mem_eq s t hmem hr (inBase + j)⟩

theorem sameBody_of_exec (i : Instr) (s t : State) (h : exec i s = .next t) : SameBody s t :=
  have hsame := sameInput_of_exec i s t h
  ⟨inLen_of_sameInput s t hsame, hsame.bytes⟩

/-- An event is no host write to IN or IN_LEN and no reset: `keepsInput` of one event. -/
def KeepsInput (e : Event) : Prop := ∀ x, e = .access x → ¬ writesInput x ∧ x ≠ .reset

theorem keepsInput_cons (e : Event) (rest : List Event) (h : keepsInput (e :: rest)) :
    KeepsInput e ∧ keepsInput rest :=
  ⟨fun x hx => h x (hx ▸ List.mem_cons_self), fun x hx => h x (List.mem_cons_of_mem _ hx)⟩

/-- What such an event is: an instruction, or an access that leaves the cursor and the body. -/
theorem happen_outcome (s t : State) (e : Event) (hk : KeepsInput e) (h : happen s e = .next t) :
    (∃ i w, e.instr = some i ∧ exec i { s with host := w } = .next t) ∨
      (e.instr = none ∧ t.su = s.su ∧ SameBody s t) := by
  rcases happen_cases s t e h with hrun | ⟨x, hx, hnone, haccess⟩
  · exact .inl hrun
  · obtain ⟨hwrite, hreset⟩ := hk x hx
    obtain ⟨_, _, _, _, _, _, _, _, _, rfl⟩ := busAccess_keepsInput x _ t haccess hwrite hreset
    exact .inr ⟨hnone, rfl, sameBody_of_memory _ _ rfl rfl rfl⟩

theorem happen_sameBody (s t : State) (e : Event) (hk : KeepsInput e) (h : happen s e = .next t) : SameBody s t := by
  rcases happen_outcome s t e hk h with ⟨i, w, -, hexec⟩ | ⟨-, -, hbody⟩
  · exact sameBody_trans s { s with host := w } t (sameBody_of_memory _ _ rfl rfl rfl) (sameBody_of_exec i _ t hexec)
  · exact hbody

theorem happenAll_sameBody (l : List Event) (s t : State) (hk : keepsInput l) (h : happenAll s l = .next t) :
    SameBody s t := by
  induction l generalizing s with
  | nil =>
    cases h
    exact sameBody_of_memory _ _ rfl rfl rfl
  | cons e rest ih =>
    obtain ⟨hke, hkrest⟩ := keepsInput_cons e rest hk
    obtain ⟨u, hu, hrest⟩ := happenAll_cons s t e rest h
    exact sameBody_trans s u t (happen_sameBody s u e hke hu) (ih u hkrest hrest)

end Sys2Proof.SampleProofs
end

section
/-! The cursor delivers the sequence of its body (43_samples.md R200): by induction over what happens, SU_POS counts the
SMP.NEXT commands since the start, up to SU_COUNT. -/

namespace Sys2Proof.SampleProofs

open Sys2Proof.Machine Sys2Proof.Laws Sys2Proof.StateProofs Sys2Proof.MemoryProofs
open Sys2Proof.EncodingProofs (code_ne_zero)

/-! ## The start -/

/-- A successful SMP.START had a legal width and a window within IN_LEN. -/
theorem smpStart_success (s t : State) (h : exec .smpStart s = .next t) (hok : t.status = 0) :
    1 ≤ s.width.toNat ∧ s.width.toNat ≤ 32 ∧ s.soff.toNat + s.slen.toNat ≤ s.inLen.toNat ∧
      t = { s with su := startedCursor s, status := 0 } := by
  have ht : t = (startEffect s).apply s := Host.Outcome.next.inj (h.symm.trans (exec_smpStart s))
  by_cases hw : 1 ≤ s.width.toNat ∧ s.width.toNat ≤ 32
  · obtain ⟨hlo, hhi⟩ := hw
    by_cases hwin : s.soff.toNat + s.slen.toNat ≤ s.inLen.toNat
    · rw [startEffect_started s hlo hhi hwin] at ht
      exact ⟨hlo, hhi, hwin, ht⟩
    · rw [startEffect_window s hlo hhi (by omega)] at ht
      subst ht
      exact absurd hok (code_ne_zero .invalidArgument (by decide))
  · rw [startEffect_width s (by omega)] at ht
    subst ht
    exact absurd hok (code_ne_zero .invalidSampleWidth (by decide))

/-- How many lanes the window of WIDTH and SLEN holds. -/
def laneCount (s : State) : Nat := s.slen.toNat / bytesPerSample s.width.toNat

/-- The cursor that a successful SMP.START in s armed has met k SMP.NEXT commands, and its body is still in IN. -/
structure Delivering (s : State) (k : Nat) (u : State) : Prop where
  legal : 1 ≤ s.width.toNat ∧ s.width.toNat ≤ 32
  body : SameBody s u
  state : u.su.state = armedState (bytesPerSample s.width.toNat) s.width
  off : u.su.off = s.soff
  count : u.su.count.toNat = laneCount s
  pos : u.su.pos.toNat = min k (laneCount s)

theorem delivering_congr (s u v : State) (k : Nat) (h : Delivering s k u) (hsu : v.su = u.su) (hbody : SameBody u v) :
    Delivering s k v := by
  obtain ⟨hlegal, hbody', hstate, hoff, hcount, hpos⟩ := h
  exact ⟨hlegal, sameBody_trans s u v hbody' hbody, hsu ▸ hstate, hsu ▸ hoff, hsu ▸ hcount, hsu ▸ hpos⟩

theorem delivering_start (s : State) (c : Word) (h : 1 ≤ s.width.toNat ∧ s.width.toNat ≤ 32) :
    Delivering s 0 { s with su := startedCursor s, status := c } where
  legal := h
  body := sameBody_of_memory _ _ rfl rfl rfl
  state := rfl
  off := rfl
  count := by
    have hle : laneCount s ≤ s.slen.toNat := Nat.div_le_self _ _
    have hlt : s.slen.toNat < 2 ^ 32 := s.slen.isLt
    exact (BitVec.toNat_ofNat _ _).trans (Nat.mod_eq_of_lt (Nat.lt_of_le_of_lt hle hlt))
  pos := (Nat.zero_min _).symm

/-! ## One SMP.NEXT -/

/-- SU_STATE stays armed with the lane size of the start. -/
theorem delivering_armed_bps (s u : State) (k : Nat) (h : Delivering s k u) :
    u.su.armed = true ∧ u.su.bps = bytesPerSample s.width.toNat := by
  obtain ⟨hlo, hhi⟩ := h.legal
  obtain ⟨-, hk⟩ := bytesPerSample_bounds s.width.toNat hlo hhi
  refine ⟨?_, (armedState_bps_width u.su s.width hlo hhi h.state).1⟩
  rw [armed_eq, h.state, armedState_toNat _ _ (by omega) (by omega), decide_eq_true_eq]
  omega

theorem delivering_pos_eq_count (s u : State) (k : Nat) (h : Delivering s k u) :
    u.su.pos = u.su.count ↔ laneCount s ≤ k := by
  rw [← BitVec.toNat_inj, h.pos, h.count, min_eq_right_iff]

/-- The effect of the next SMP.NEXT, by the number of those before it. -/
theorem nextEffect_delivering (s u : State) (k : Nat) (h : Delivering s k u) :
    nextEffect u = if k < laneCount s then .cursor (deliveredCursor u) .ok else .status .sampleEnd := by
  obtain ⟨ha, -⟩ := delivering_armed_bps s u k h
  have hend := delivering_pos_eq_count s u k h
  split
  · exact nextEffect_delivered u ha (by rw [ne_eq, hend]; omega)
  · exact nextEffect_end u ha (by rw [hend]; omega)

theorem smpNext_delivering (s u v : State) (k : Nat) (h : Delivering s k u) (hv : exec .smpNext u = .next v) :
    Delivering s (k + 1) v := by
  have hbody := sameBody_of_exec _ u v hv
  have heffect := nextEffect_delivering s u k h
  have hvu : v = (nextEffect u).apply u := Host.Outcome.next.inj (hv.symm.trans (exec_smpNext u))
  obtain ⟨hlegal, hbody', hstate, hoff, hcount, hpos⟩ := h
  have hbody'' := sameBody_trans s u v hbody' hbody
  split at heffect
  · next hk =>
    have hsu : v.su = deliveredCursor u := by rw [hvu, heffect]; rfl
    have hnext : (u.su.pos + 1).toNat = u.su.pos.toNat + 1 := by
      have hlt : u.su.pos.toNat < u.su.count.toNat := by omega
      bv_omega
    refine ⟨hlegal, hbody'', hsu ▸ hstate, hsu ▸ hoff, hsu ▸ hcount, ?_⟩
    rw [hsu, deliveredCursor, hnext, hpos]
    omega
  · next hk =>
    have hsu : v.su = u.su := by rw [hvu, heffect]; rfl
    exact ⟨hlegal, hbody'', hsu ▸ hstate, hsu ▸ hoff, hsu ▸ hcount, by rw [hsu, hpos]; omega⟩

/-! ## Whatever happens between -/

theorem su_of_exec (i : Instr) (s t : State) (hstart : i ≠ .smpStart) (hnext : i ≠ .smpNext) (h : exec i s = .next t) :
    t.su = s.su := by
  rcases exec_outcome i s t h with ⟨r, c, rfl⟩ | ⟨u, c, hi, -⟩ | ⟨-, henc⟩
  · rfl
  · exact absurd hi (not_or.2 ⟨hstart, hnext⟩)
  · exact su_of_encoderOutcome s t henc

/-- How many SMP.NEXT run in a list of events. -/
def nextCount (l : List Event) : Nat := (l.filterMap Event.instr).count .smpNext

theorem nextCount_cons (e : Event) (l : List Event) :
    nextCount (e :: l) = (if e.instr = some .smpNext then 1 else 0) + nextCount l := by
  cases hi : e.instr with
  | none => simp [nextCount, hi]
  | some i => simp [nextCount, hi, List.count_cons, Nat.add_comm]

theorem happen_delivering (s u v : State) (k : Nat) (e : Event) (h : Delivering s k u) (hk : KeepsInput e)
    (hstart : e.instr ≠ some .smpStart) (hv : happen u e = .next v) :
    Delivering s (k + if e.instr = some .smpNext then 1 else 0) v := by
  rcases happen_outcome u v e hk hv with ⟨i, w, hi, hexec⟩ | ⟨hnone, hsu, hbody⟩
  · have hw : Delivering s k { u with host := w } := delivering_congr s u _ k h rfl (sameBody_of_memory _ _ rfl rfl rfl)
    by_cases hnext : i = .smpNext
    · subst hnext
      rw [if_pos hi]
      exact smpNext_delivering s _ v k hw hexec
    · rw [if_neg (by simpa [hi] using hnext)]
      exact delivering_congr s _ v k hw (su_of_exec i _ v (fun heq => hstart (heq ▸ hi)) hnext hexec)
        (sameBody_of_exec i _ v hexec)
  · rw [if_neg (by simp [hnone])]
    exact delivering_congr s u v k h hsu hbody

theorem happenAll_delivering (l : List Event) (s u v : State) (k : Nat) (h : Delivering s k u)
    (hk : keepsInput l) (hstart : Instr.smpStart ∉ l.filterMap Event.instr) (hv : happenAll u l = .next v) :
    Delivering s (k + nextCount l) v := by
  induction l generalizing u k with
  | nil =>
    cases hv
    exact h
  | cons e rest ih =>
    obtain ⟨hke, hkrest⟩ := keepsInput_cons e rest hk
    obtain ⟨t, ht, hrest⟩ := happenAll_cons u v e rest hv
    have hfirst : e.instr ≠ some .smpStart := fun he => hstart (List.mem_filterMap.2 ⟨e, List.mem_cons_self, he⟩)
    have hlater : Instr.smpStart ∉ rest.filterMap Event.instr := fun hmem => by
      obtain ⟨x, hx, hxi⟩ := List.mem_filterMap.1 hmem
      exact hstart (List.mem_filterMap.2 ⟨x, List.mem_cons_of_mem _ hx, hxi⟩)
    rw [nextCount_cons, ← Nat.add_assoc]
    exact ih t _ (happen_delivering s u t k e h hke hfirst ht) hkrest hlater hrest

/-! ## The element delivered -/

/-- A window within a window of IN. -/
theorem take_drop_inBytes (s : State) (a n i m : Nat) (h : i + m ≤ n) :
    ((s.inBytes a n).drop i).take m = s.inBytes (a + i) m := by
  refine List.ext_getElem ?_ fun j hj hj' => ?_
  · simp only [List.length_take, List.length_drop, inBytes_length]
    omega
  · rw [List.getElem_take, List.getElem_drop, inBytes_getElem, inBytes_getElem, Nat.add_assoc]

/-- The lane at the cursor is the one whose index is the number of deliveries. -/
theorem deliveredCursor_sample (s u : State) (k : Nat) (h : Delivering s k u)
    (hwin : s.soff.toNat + s.slen.toNat ≤ s.inLen.toNat) (hk : k < laneCount s) :
    (deliveredCursor u).sample = lane (s.inBytes s.soff.toNat s.slen.toNat) s.width.toNat k := by
  obtain ⟨-, hbps⟩ := delivering_armed_bps s u k h
  obtain ⟨hsize, -⟩ := bytesPerSample_bounds s.width.toNat h.legal.1 h.legal.2
  have hend := lane_end_le _ _ k hsize hk
  have hbase : cursorBase u = s.soff.toNat + k * bytesPerSample s.width.toNat := by
    rw [cursorBase, hbps, h.off, h.pos, Nat.min_eq_left (Nat.le_of_lt hk)]
  rw [lane_eq, laneBytes, take_drop_inBytes s _ _ _ _ hend, deliveredCursor, hbase, hbps,
    inBytes_congr s u _ _ fun j hj => h.body.bytes _ (by omega)]

/-- Settles O36: after k SMP.NEXT the cursor stands at lane k, or at the end. -/
theorem cursorDeliversTheSequence : Obligations.CursorDeliversTheSequence := by
  intro s t u between _ ht hok hkeeps hstart hu
  obtain ⟨hlo, hhi, hwin, rfl⟩ := smpStart_success s t ht hok
  have hd : Delivering s (0 + nextCount between) u :=
    happenAll_delivering between s _ u 0 (delivering_start s 0 ⟨hlo, hhi⟩) hkeeps hstart hu
  rw [Nat.zero_add] at hd
  refine ⟨_, samples_valid _ _ hlo hhi, _, exec_smpNext u, ?_⟩
  intro k
  have hcount : sampleCount (s.inBytes s.soff.toNat s.slen.toNat) s.width.toNat = laneCount s := by
    rw [sampleCount, inBytes_length, laneCount]
  have heffect : nextEffect u = if k < laneCount s then .cursor (deliveredCursor u) .ok else .status .sampleEnd :=
    nextEffect_delivering s u k hd
  split
  · next hk =>
    have hlt : k < laneCount s := by simpa [hcount] using hk
    rw [heffect, if_pos hlt]
    refine ⟨rfl, ?_⟩
    rw [List.getElem_map, List.getElem_range, ← deliveredCursor_sample s u k hd hwin hlt]
    rfl
  · next hk =>
    rw [heffect, if_neg (by simpa [hcount] using hk)]
    exact ⟨rfl, rfl⟩

end Sys2Proof.SampleProofs
end

section
/-! SMP.START is repeatable (43_samples.md R201): over the same body it arms the same cursor, and cursors that agree
over the same body deliver alike. -/

namespace Sys2Proof.SampleProofs

open Sys2Proof.Machine Sys2Proof.Laws Sys2Proof.StateProofs Sys2Proof.MemoryProofs

/-! ## The start -/

/-- SMP.START writes the cursor whole, raising or not. -/
theorem startEffect_cursor (s : State) : ∃ c e, startEffect s = .cursor c e := by
  simp only [startEffect]
  split
  · exact ⟨_, _, rfl⟩
  · split <;> exact ⟨_, _, rfl⟩

theorem startEffect_of_operands (s t : State) (hwidth : t.width = s.width) (hsoff : t.soff = s.soff)
    (hslen : t.slen = s.slen) (hin : t.inLen = s.inLen) : startEffect t = startEffect s := by
  simp only [startEffect, startedCursor, hwidth, hsoff, hslen, hin]

/-- `smpStart_cursorGood` from the one length that SMP.START reads. -/
theorem smpStart_cursorGood_of_inLen (s t : State) (hin : s.inLen.toNat ≤ Config.inCap)
    (ht : exec .smpStart s = .next t) : CursorGood t := by
  obtain ⟨e, rfl⟩ | ⟨hlo, hhi, hwin, rfl⟩ := smpStart_outcome s t ht
  · exact cursorGood_of_zero _ rfl
  · exact startedCursor_good s 0 hlo hhi hwin hin

/-! ## Deliveries from cursors that agree -/

/-- Two states whose next samples are the same. -/
structure SameSamples (s t : State) : Prop where
  body : SameBody s t
  cursor : t.su = s.su
  status : t.status = s.status
  good : CursorGood s

theorem nextEffect_sameSamples (s t : State) (h : SameSamples s t) : nextEffect t = nextEffect s :=
  nextEffect_congr s t h.cursor fun ha hp j hj => h.body.bytes _ <| by
    have hlane := lane_within_inLen s h.good ha hp
    omega

/-- An effect on STATUS and the cursor alone ends alike where the cursors agree. -/
theorem nextEffect_apply_congr (s t : State) (h : t.su = s.su) :
    ((nextEffect s).apply t).su = ((nextEffect s).apply s).su ∧
      ((nextEffect s).apply t).status = ((nextEffect s).apply s).status := by
  rw [nextEffect]
  split
  · exact ⟨h, rfl⟩
  · split
    · exact ⟨h, rfl⟩
    · exact ⟨rfl, rfl⟩

theorem smpNext_sameSamples (s t : State) (h : SameSamples s t) :
    ∃ x y, exec .smpNext s = .next x ∧ exec .smpNext t = .next y ∧ SameSamples x y := by
  have hx := exec_smpNext s
  have hy : exec .smpNext t = .next ((nextEffect s).apply t) := by rw [exec_smpNext, nextEffect_sameSamples s t h]
  obtain ⟨hsu, hstatus⟩ := nextEffect_apply_congr s t h.cursor
  refine ⟨_, _, hx, hy, ?_, hsu, hstatus, smpNext_cursorGood s _ h.good hx⟩
  obtain ⟨hxin, hxbytes⟩ := sameBody_of_exec _ s _ hx
  obtain ⟨hyin, hybytes⟩ := sameBody_of_exec _ t _ hy
  obtain ⟨hin, hbytes⟩ := h.body
  refine ⟨by rw [hyin, hin, hxin], fun j hj => ?_⟩
  rw [hxin] at hj
  rw [hybytes j (hin ▸ hj), hbytes j hj, hxbytes j hj]

theorem nextSamples_succ (s t : State) (k : Nat) (h : exec .smpNext s = .next t) :
    nextSamples s (k + 1) = nextSamples t k := by
  rw [nextSamples, List.replicate_succ, happenAll, happen, h]
  rfl

theorem nextSamples_sameSamples (k : Nat) (s t : State) (h : SameSamples s t) :
    ∃ x y, nextSamples s k = .next x ∧ nextSamples t k = .next y ∧ SameSamples x y := by
  induction k generalizing s t with
  | zero => exact ⟨s, t, rfl, rfl, h⟩
  | succ k ih =>
    obtain ⟨s', t', hs, ht, h'⟩ := smpNext_sameSamples s t h
    rw [nextSamples_succ s s' k hs, nextSamples_succ t t' k ht]
    exact ih s' t' h'

/-- Settles O37: the second start has the operands of the first, so its effect. -/
theorem sampleStartRestarts : Obligations.SampleStartRestarts := by
  intro s t u v between hin ht hkeeps hu hwidth hsoff hslen hv
  have hst := sameBody_of_exec _ s t ht
  have htu := happenAll_sameBody between t u hkeeps hu
  have htv := sameBody_trans t u v htu (sameBody_of_exec _ u v hv)
  obtain ⟨c, e, heffect⟩ := startEffect_cursor s
  have hts : t = (Effect.cursor c e).apply s := by
    rw [← heffect]
    exact Host.Outcome.next.inj (ht.symm.trans (exec_smpStart s))
  have hvu : v = (Effect.cursor c e).apply u := by
    rw [← heffect, ← startEffect_of_operands s u hwidth hsoff hslen (htu.inLen.trans hst.inLen)]
    exact Host.Outcome.next.inj (hv.symm.trans (exec_smpStart u))
  have hsu : v.su = t.su := by rw [hvu, hts]; rfl
  have hstatus : v.status = t.status := by rw [hvu, hts]; rfl
  refine ⟨hsu, hstatus, (sameBody_trans s t v hst htv).bytes, fun k => ?_⟩
  obtain ⟨x, y, hx, hy, hxy⟩ :=
    nextSamples_sameSamples k t v ⟨htv, hsu, hstatus, smpStart_cursorGood_of_inLen s t hin ht⟩
  exact ⟨x, y, hx, hy, hxy.cursor, hxy.status⟩

end Sys2Proof.SampleProofs
end

section
/-! NOP and the illegal command (44_command_control.md R221, R222): each completes with its code and does nothing
else. -/

namespace Sys2Proof.CommandProofs

open Sys2Proof.Machine Sys2Proof.StateProofs

theorem exec_nop (s : State) : exec .nop s = .next (s.complete .ok) := rfl

theorem exec_illegal (v : Word) (s : State) : exec (.illegal v) s = .next (s.complete .illegalCommand) := rfl

/-- Settles O1: to complete with OK is to write 0 to STATUS. -/
theorem nopSetsStatusOkOnly : Obligations.NopSetsStatusOkOnly :=
  ⟨by decide, exec_nop⟩

/-- Settles O2: the values R222 names are those from 8 up, and to complete with ILLEGAL_COMMAND is to write 0x0A to
STATUS. -/
theorem illegalCommandRaisesOnly : Obligations.IllegalCommandRaisesOnly := by
  intro v s hv
  have hdecode : decodeCommand v = .illegal v := decodeCommand_illegal v (by omega)
  refine ⟨hdecode, ?_⟩
  rw [hdecode]
  exact exec_illegal v s

end Sys2Proof.CommandProofs
end

section
/-! What a raising command leaves (60_exceptions.md R231, R233). Each command's results, class by class, already say
its whole next state; here the raising classes are read off from them. -/

namespace Sys2Proof.CommandProofs

open Sys2Proof.Machine Sys2Proof.EncodingProofs Sys2Proof.DecodeProofs Sys2Proof.SampleProofs

/-- The state an instruction leaves when it raises a code: what it cleared before the raise, and STATUS
(60_exceptions.md R231). -/
def raisedState (i : Instr) (code : Word) (s : State) : State :=
  match i with
  | .nop | .smpNext | .illegal _ => { s with status := code }
  | .smpStart => afterStartRaise code s
  | .encCtrl | .encData => afterEncodeRaise code s
  | _ => afterRaise code s

/-- An instruction ends with OK or SAMPLE_END, or raises one of the codes of R233 and leaves what R231 lists. -/
def EndsOrRaises (i : Instr) (s : State) : Prop :=
  (∃ t, exec i s = .next t ∧ (t.status = 0 ∨ t.status = 8)) ∨
  ∃ code ∈ raisedCodes i, exec i s = .next (raisedState i code s)

theorem raisedState_status (i : Instr) (code : Word) (s : State) : (raisedState i code s).status = code := by
  cases i <;> rfl

/-- An end with neither OK nor SAMPLE_END is a raise. -/
theorem eq_raisedState_of_endsOrRaises (i : Instr) (s t : State) (h : EndsOrRaises i s) (ht : exec i s = .next t)
    (hok : t.status ≠ 0) (hend : t.status ≠ 8) : t.status ∈ raisedCodes i ∧ t = raisedState i t.status s := by
  obtain ⟨u, hu, hstatus⟩ | ⟨code, hcode, hraise⟩ := h
  · cases hu.symm.trans ht
    exact (hstatus.elim hok hend).elim
  · cases hraise.symm.trans ht
    rw [raisedState_status]
    exact ⟨hcode, rfl⟩

/-! ## The commands -/

theorem hdrPack_endsOrRaises (s : State) : EndsOrRaises .hdrPack s := by
  obtain ⟨htype, hnegative, hfield, hescape, htooLong⟩ := headerPackResults.2 s
  by_cases ht : 7 < s.frameType.toNat
  · exact .inr ⟨0x07, by decide, htype ht⟩
  by_cases hlo : s.tlen.toInt < 0
  · exact .inr ⟨0x07, by decide, hnegative (by omega) hlo⟩
  by_cases hhi : s.tlen.toInt ≤ 8191
  · exact .inl ⟨_, hfield (by omega) (by omega) hhi, .inl rfl⟩
  by_cases hesc : 4 ≤ s.frameType.toNat ∧ s.tlen.toInt = 8194
  · exact .inl ⟨_, hescape hesc.1 (by omega) hesc.2, .inl rfl⟩
  · exact .inr ⟨0x06, by decide, htooLong (by omega) (by omega) hesc⟩

theorem hdrUnpack_endsOrRaises (s : State) : EndsOrRaises .hdrUnpack s := by
  obtain ⟨hwide, hword⟩ := headerUnpackResults.2 s
  by_cases hh : 0xFFFF < s.hdr.toNat
  · exact .inr ⟨0x07, by decide, hwide hh⟩
  · exact .inl ⟨_, hword (by omega), .inl rfl⟩

theorem encCtrl_endsOrRaises (s : State) : EndsOrRaises .encCtrl s := by
  obtain ⟨htype, hitem, htooLong, hframe⟩ := controlEncodeResults.2 s
  by_cases ht : 3 < s.frameType.toNat
  · exact .inr ⟨0x07, by decide, htype ht⟩
  by_cases hc : s.item.toNat ∈ itemNumbers
  · by_cases hn : 8191 < 4 + s.inLen.toNat
    · exact .inr ⟨0x06, by decide, htooLong (by omega) hc hn⟩
    · obtain ⟨u, hu, hstate, -⟩ := hframe (by omega) hc (by omega)
      exact .inl ⟨u, hu, .inl (congrArg State.status hstate)⟩
  · exact .inr ⟨0x07, by decide, hitem (by omega) hc⟩

theorem encData_endsOrRaises (s : State) : EndsOrRaises .encData s := by
  obtain ⟨htype, hshort, htooLong, hframe⟩ := dataEncodeResults.2 s
  by_cases ht : s.frameType.toNat < 4 ∨ 7 < s.frameType.toNat
  · exact .inr ⟨0x07, by decide, htype ht⟩
  by_cases hs : (s.frameType.toNat = 4 ∨ s.frameType.toNat = 5) ∧ s.inLen.toNat < 2
  · exact .inr ⟨0x07, by decide, hshort hs.1 hs.2⟩
  by_cases hp : 2 + s.inLen.toNat ≤ 8191 ∨ 2 + s.inLen.toNat = 8194
  · obtain ⟨u, hu, hstate, -⟩ := hframe (by omega) (by omega) hs hp
    exact .inl ⟨u, hu, .inl (congrArg State.status hstate)⟩
  · exact .inr ⟨0x06, by decide, htooLong (by omega) (by omega) (by omega) (by omega)⟩

theorem decode_endsOrRaises (s : State) : EndsOrRaises .decode s := by
  obtain ⟨hempty, hmismatch, htruncated, hunknown, hitem, hseq, hbare⟩ := decodeResults.2 s
  by_cases hn : s.inLen.toNat < 2
  · exact .inr ⟨0x01, by decide, hempty hn⟩
  by_cases hd : s.inLen.toNat = declaredLength (inHalf s 0)
  swap
  · exact .inr ⟨0x02, by decide, hmismatch (by omega) hd⟩
  by_cases htbare : 6 ≤ typeNumber (inHalf s 0)
  · exact .inl ⟨_, hbare (by omega) hd htbare, .inl rfl⟩
  by_cases hlong : s.inLen.toNat < 4
  · exact .inr ⟨0x04, by decide, htruncated (by omega) hd (by omega) hlong⟩
  by_cases htseq : typeNumber (inHalf s 0) = 5
  · exact .inl ⟨_, hseq (by omega) hd htseq, .inl rfl⟩
  by_cases hc : (inHalf s 2).toNat ∈ itemNumbers
  · exact .inl ⟨_, hitem (by omega) hd (by omega) hc, .inl rfl⟩
  · exact .inr ⟨0x03, by decide, hunknown (by omega) hd (by omega) hc⟩

theorem smpStart_endsOrRaises (s : State) : EndsOrRaises .smpStart s := by
  obtain ⟨hwidth, hwindow, hstarted⟩ := sampleStartResults.2 s
  by_cases hw : s.width.toNat < 1 ∨ 32 < s.width.toNat
  · exact .inr ⟨0x05, by decide, hwidth hw⟩
  by_cases hin : s.inLen.toNat < s.soff.toNat + s.slen.toNat
  · exact .inr ⟨0x07, by decide, hwindow (by omega) (by omega) hin⟩
  · exact .inl ⟨_, hstarted (by omega) (by omega) (by omega), .inl rfl⟩

theorem smpNext_endsOrRaises (s : State) : EndsOrRaises .smpNext s := by
  obtain ⟨hnotArmed, hfinished, hdelivered⟩ := sampleNextResults.2 s
  rcases Nat.mod_two_eq_zero_or_one s.su.state.toNat with ha | ha
  · exact .inr ⟨0x09, by decide, hnotArmed ha⟩
  by_cases hp : s.su.pos = s.su.count
  · exact .inl ⟨_, hfinished ha hp, .inr rfl⟩
  · exact .inl ⟨_, hdelivered ha hp, .inl rfl⟩

theorem command_endsOrRaises (i : Instr) (s : State) (h : i.domain = .command) : EndsOrRaises i s := by
  cases i
  case nop => exact .inl ⟨_, exec_nop s, .inl rfl⟩
  case illegal v => exact .inr ⟨0x0A, List.mem_singleton_self _, exec_illegal v s⟩
  case hdrPack => exact hdrPack_endsOrRaises s
  case hdrUnpack => exact hdrUnpack_endsOrRaises s
  case encCtrl => exact encCtrl_endsOrRaises s
  case encData => exact encData_endsOrRaises s
  case decode => exact decode_endsOrRaises s
  case smpStart => exact smpStart_endsOrRaises s
  case smpNext => exact smpNext_endsOrRaises s
  all_goals simp [Instr.domain] at h

/-- Settles O10: to raise is to complete with the code, and every command ends or raises as listed. -/
theorem raisingLeavesOnlyTheListedEffects : Obligations.RaisingLeavesOnlyTheListedEffects := by
  refine ⟨fun _ _ => rfl, fun i s t hi ht hok hend => ?_⟩
  obtain ⟨hcode, hstate⟩ := eq_raisedState_of_endsOrRaises i s t (command_endsOrRaises i s hi) ht hok hend
  refine ⟨hcode, hstate.trans ?_⟩
  cases i <;> rfl

end Sys2Proof.CommandProofs
end

section
/-! The reset input (70_reset_and_hazards.md R260). -/

namespace Sys2Proof.StateProofs

open Sys2Proof.Machine Sys2Proof.Laws

theorem step_reset (s : State) (rest : List HostAccess) (hs : s.host = .reset :: rest) :
    step s = .next (resetBlock { s with host := rest }) :=
  step_access s .reset rest hs rfl

/-- No register reads one of the four fields of the model's own that the reset input keeps or counts. -/
theorem resetBlock_readReg (s : State) (r : Reg) : (resetBlock s).readReg r = State.reset.readReg r := by
  cases r <;> rfl

/-- Settles O50: the registers read as they do in the state after reset. -/
theorem resetInputClearsEveryRegister : Obligations.ResetInputClearsEveryRegister := by
  intro s rest hs
  obtain ⟨hzero, hid, hcap⟩ := resetValues
  refine ⟨_, step_reset s rest hs, ?_⟩
  simp only [resetBlock_readReg, resetBlock_su]
  exact ⟨hzero, hid, hcap, rfl⟩

end Sys2Proof.StateProofs
end
